-- ==== Sys2Proof/Word.lean ====
section
/-! DEFINITION. The widths the spec fixes (00_scope.md R6, R8; 10_state.md R21; 30_encoding.md R60, R67) and the named
constants of R6 and R21. -/

namespace Sys2Proof

/-- An 8-bit unsigned value (R8): what one port holds and one byte cycle moves. -/
abbrev Byte := BitVec 8

/-- A 16-bit unsigned port address (R6 `PORT_W`, R8). -/
abbrev Port := BitVec 16

/-- A 32-bit handler identifier (R21). -/
abbrev HID := BitVec 32

/-- A 32-bit data value: the payload of a command or the `RDATA` of a response (R60, R67). -/
abbrev Data := BitVec 32

/-- A 64-bit command word (R60) or response word (R67). -/
abbrev Word64 := BitVec 64

/-- `NPORTS` (R6): the entries of each handler array. -/
abbrev portCount : Nat := 65536

/-- `HID_STUB` (R21): the stub handler. -/
abbrev hidStub : HID := 0#32

/-- `HID_A20` (R21): the A20-gate handler. -/
abbrev hidA20 : HID := 1#32

/-- `A20_PORT` (R6, R117). -/
abbrev a20Port : Port := 0x92#16

/-- The byte a read through the stub returns (R6, R110). -/
abbrev stubByte : Byte := 0xFF#8

end Sys2Proof
end

