-- ==== Sys2Proof/Syntax.lean ====
section
/-! DEFINITION. The commands of spec/opcode_table.json, one constructor a row (30_encoding.md R61), the reasons a command is
refused (60_exceptions.md R121), and what the decoder answers. -/

namespace Sys2Proof

/-- One constructor per row of the opcode table, with the operands of R62, R63 and R64. -/
inductive Instr where
  | read8 (p : Port)
  | read16 (p : Port)
  | read32 (p : Port)
  | write8 (p : Port) (v : BitVec 8)
  | write16 (p : Port) (v : BitVec 16)
  | write32 (p : Port) (v : BitVec 32)
  | regRead (p : Port) (h : HID)
  | regWrite (p : Port) (h : HID)
deriving DecidableEq, Repr

/-- The five refusal reasons of R121, each a separate named case. -/
inductive RefuseReason where
  | reservedBitsSet
  | reservedCommand
  | nonzeroUnusedPayload
  | builtinHandlerId
  | reentrantCommand
deriving DecidableEq, Repr

/-- What a presented word stands for (R66): a command, or a refusal at the first check that fails. -/
inductive Decoded where
  | command (i : Instr)
  | refused (r : RefuseReason)
deriving DecidableEq, Repr

end Sys2Proof
end

