-- ==== Sys2Proof/WellFormed.lean ====
section
/-! DEFINITION. The one check the operand types leave over: a registration's handler identifier is an external one
(30_encoding.md R64, 40_registration.md R84). Every other operand is exactly as wide as its field. -/

namespace Sys2Proof

/-- A handler identifier that may be registered: 2 or more (R64). -/
def externalHid (h : HID) : Bool := decide (2 ≤ h.toNat)

/-- A command that format C can spell (R60, R64). -/
def Instr.wf : Instr → Bool
  | .read8 _ => true
  | .read16 _ => true
  | .read32 _ => true
  | .write8 _ _ => true
  | .write16 _ _ => true
  | .write32 _ _ => true
  | .regRead _ h => externalHid h
  | .regWrite _ h => externalHid h

end Sys2Proof
end

