-- ==== Sys2Proof/Decode.lean ====
section
/-! DEFINITION. Decoding and encoding of format C (30_encoding.md R60 to R66, R70, R75, R76). -/

namespace Sys2Proof

/-- `CMD` = cmd[3:0] (R60). -/
def cmdField (w : Word64) : BitVec 4 := w.extractLsb' 0 4

/-- `PORT` = cmd[19:4] (R60, R62). -/
def portField (w : Word64) : Port := w.extractLsb' 4 16

/-- `PAYLOAD` = cmd[51:20] (R60). -/
def payloadField (w : Word64) : Data := w.extractLsb' 20 32

/-- `RSV` = cmd[63:52] (R60, R65). -/
def rsvField (w : Word64) : BitVec 12 := w.extractLsb' 52 12

/-- The payload bits above an 8-bit value, cmd[51:28] (R63). -/
def payloadAbove8 (w : Word64) : BitVec 24 := w.extractLsb' 28 24

/-- The payload bits above a 16-bit value, cmd[51:36] (R63). -/
def payloadAbove16 (w : Word64) : BitVec 16 := w.extractLsb' 36 16

/-- The command `i` unless payload bits it does not use are set (R63, R66). -/
def unusedZero (zero : Bool) (i : Instr) : Decoded :=
  if zero then .command i else .refused .nonzeroUnusedPayload

/-- The registration `i` unless its handler identifier `h` is a built-in one (R64, R66). -/
def externalOnly (h : HID) (i : Instr) : Decoded :=
  if externalHid h then .command i else .refused .builtinHandlerId

/-- Decoding, with the checks in the order of R66. -/
def decode (w : Word64) : Decoded :=
  if rsvField w ≠ 0#12 then .refused .reservedBitsSet
  else if cmdField w = 0x1#4 then unusedZero (payloadField w = 0#32) (.read8 (portField w))
  else if cmdField w = 0x2#4 then unusedZero (payloadField w = 0#32) (.read16 (portField w))
  else if cmdField w = 0x3#4 then unusedZero (payloadField w = 0#32) (.read32 (portField w))
  else if cmdField w = 0x5#4 then unusedZero (payloadAbove8 w = 0#24) (.write8 (portField w) ((payloadField w).setWidth 8))
  else if cmdField w = 0x6#4 then unusedZero (payloadAbove16 w = 0#16) (.write16 (portField w) ((payloadField w).setWidth 16))
  else if cmdField w = 0x7#4 then .command (.write32 (portField w) (payloadField w))
  else if cmdField w = 0x8#4 then externalOnly (payloadField w) (.regRead (portField w) (payloadField w))
  else if cmdField w = 0x9#4 then externalOnly (payloadField w) (.regWrite (portField w) (payloadField w))
  else .refused .reservedCommand

/-- The `CMD` code of a command (R61). -/
def Instr.cmdCode : Instr → BitVec 4
  | .read8 _ => 0x1#4
  | .read16 _ => 0x2#4
  | .read32 _ => 0x3#4
  | .write8 _ _ => 0x5#4
  | .write16 _ _ => 0x6#4
  | .write32 _ _ => 0x7#4
  | .regRead _ _ => 0x8#4
  | .regWrite _ _ => 0x9#4

/-- The port operand of a command (R62). -/
def Instr.port : Instr → Port
  | .read8 p => p
  | .read16 p => p
  | .read32 p => p
  | .write8 p _ => p
  | .write16 p _ => p
  | .write32 p _ => p
  | .regRead p _ => p
  | .regWrite p _ => p

/-- The payload of a command: zero for a read, the zero-extended value for a write, the HID for a registration (R63, R64). -/
def Instr.payload : Instr → Data
  | .read8 _ => 0#32
  | .read16 _ => 0#32
  | .read32 _ => 0#32
  | .write8 _ v => v.setWidth 32
  | .write16 _ v => v.setWidth 32
  | .write32 _ v => v
  | .regRead _ h => h
  | .regWrite _ h => h

/-- Format C (R60): RSV = 0, then PAYLOAD, PORT and CMD, from the high bits down. -/
def formatC (payload : Data) (port : Port) (cmd : BitVec 4) : Word64 := 0#12 ++ payload ++ port ++ cmd

/-- The word of a command (R60, R61). -/
def encode (i : Instr) : Word64 := formatC i.payload i.port i.cmdCode

/-- A row of R76: a word selects it when `(w & mask) = bits` (R75), and for a registration its payload is 2 or more. -/
structure OpcodeRow where
  bits : Word64
  mask : Word64
  registration : Bool
deriving DecidableEq, Repr

/-- R76, in the order of its table. -/
def opcodeRows : List OpcodeRow :=
  [⟨0x0000000000000001#64, 0xFFFFFFFFFFF0000F#64, false⟩,
   ⟨0x0000000000000002#64, 0xFFFFFFFFFFF0000F#64, false⟩,
   ⟨0x0000000000000003#64, 0xFFFFFFFFFFF0000F#64, false⟩,
   ⟨0x0000000000000005#64, 0xFFFFFFFFF000000F#64, false⟩,
   ⟨0x0000000000000006#64, 0xFFFFFFF00000000F#64, false⟩,
   ⟨0x0000000000000007#64, 0xFFF000000000000F#64, false⟩,
   ⟨0x0000000000000008#64, 0xFFF000000000000F#64, true⟩,
   ⟨0x0000000000000009#64, 0xFFF000000000000F#64, true⟩]

/-- Whether the word selects the row (R75). -/
def OpcodeRow.selects (r : OpcodeRow) (w : Word64) : Bool :=
  (w &&& r.mask == r.bits) && (!r.registration || externalHid (payloadField w))

/-- The host's view of the decoder: the command whose word has the bits `w` of an `nbits`-bit row, higher bits zero. A
command is one 64-bit word, whole in itself (R60, R69), so no byte order enters. -/
def decodeTableWord (nbits w : Nat) : Option Instr :=
  match decode (BitVec.ofNat 64 (w % 2 ^ nbits)) with
  | .command i => some i
  | .refused _ => none

end Sys2Proof
end

