-- ==== Sys2Proof/Machine/Records.lean ====
section
/-! DEFINITION. The records the block emits and the model keeps: byte-cycle records (00_scope.md R11), device-port transfers
(30_encoding.md R72), diagnostic records (R74), response status (R68), and a command as it is presented (R2, R125). -/

namespace Sys2Proof.Machine

/-- The direction of an access: R or W (R74), `DC_DIR` 0 or 1 (R72). -/
inductive Dir where
  | read
  | write
deriving DecidableEq, Repr

/-- The three access widths (R6). -/
inductive Width where
  | w8
  | w16
  | w32
deriving DecidableEq, Repr

/-- A byte-cycle record of `Hist` (R11): `RdCyc` and `WrCyc`. -/
inductive Cycle where
  | rd (slot : Port) (hid : HID) (arg : Port) (byte : Byte)
  | wr (slot : Port) (hid : HID) (arg : Port) (byte : Byte)
deriving DecidableEq, Repr

/-- A transfer on the device byte-cycle port (R72). `read` has `DC_DIR` = 0 and carries `DC_RDATA`; `write` has
`DC_DIR` = 1 and carries `DC_WDATA`. Neither carries the slot (R73). -/
inductive DevXfer where
  | read (hid : HID) (arg : Port) (rdata : Byte)
  | write (hid : HID) (arg : Port) (wdata : Byte)
deriving DecidableEq, Repr

/-- A record of the diagnostic output (R74). `wdata` of a rejected write is the written value zero-extended to 32 bits,
of which `width` says how many bits are the value (log 10); of a rejected read it is none. -/
inductive DiagRec where
  | stub (dir : Dir) (arg slot : Port) (value : Byte) (name : Option String)
  | reject (dir : Dir) (width : Width) (port : Port) (wdata : Option Data)
deriving DecidableEq, Repr

/-- The response status (R68). Its codes 0b10 and 0b11 are never produced, so they have no constructor. -/
inductive Status where
  | ok
  | rejected
deriving DecidableEq, Repr

/-- A command as it is presented on the command port (R2): its word, and whether a device handler issued it during its own
byte cycle (R125). -/
structure Command where
  word : Word64
  reentrant : Bool
deriving DecidableEq, Repr

end Sys2Proof.Machine
end

