-- ==== Sys2Proof/Config.lean ====
section
/-! DEFINITION. The parameters the source leaves open (00_scope.md R7) and the draws (R10 `DevRead`, `draw_N`), as constants
without a body: nothing can prove a value of one, so a claim holds whatever they are. -/

namespace Sys2Proof.Config

/-- `A20_RESET` (R7, R29; OPEN, D14): the A20 latch at construction. Log 1. -/
opaque a20Reset : Byte

/-- `DIAG_IN` (R7, R26, R140): the configuration bit sampled once at construction. Log 2. -/
opaque diagIn : Bool

/-- `PORT_NAME` (R7; OPEN, D16): names of well-known ports, used in diagnostic records only. Log 3. -/
opaque portName : Port → Option String

/-- The draw `DevRead(h, arg)` (R10, R31): the byte external read handler `h` answers. It may depend on anything in the
device's history, so it is applied to all transfers of the device port before it, which carry no slot and no built-in cycle
(R72, R73), and to the number of the draw, so that no two draws of a run are related (R102). Log 4. -/
opaque devRead (draw : Nat) (transfers : List Machine.DevXfer) (h : HID) (arg : Port) : Byte

/-- The `draw_32` of a rejected read (R67, R99). Log 5. -/
opaque rejectedData (draw : Nat) (hist : List Machine.Cycle) (width : Machine.Width) (p : Port) : Data

end Sys2Proof.Config
end

