-- ==== Sys2Proof/Machine/State.lean ====
section
/-! DEFINITION. The state of the block (10_state.md R20, R32), its construction (70_reset_and_hazards.md R140), and the
reasons a step could stop. -/

namespace Sys2Proof.Machine

/-- The block raises no exception, trap or fault (60_exceptions.md R120), so there is no fault reason. -/
inductive Fault where
deriving DecidableEq, Repr

/-- The reasons the model itself would have for giving a command no meaning. The refusals of R121 are none of these: they
are marks in the state (`State.refusals`), after which the block goes on. -/
inductive Refusal where
  /-- Raised by an arm of `exec` that has no meaning yet. No arm of this model raises it. Safe. -/
  | notModelled (mnemonic : String)
deriving DecidableEq, Repr

/-- A handler array, `RD` or `WR` (R20): the bindings other than the stub, by port number, strictly rising. A port that is
not listed is bound to `HID_STUB` (R29), so every port has exactly one entry (R22). Log 12. -/
abbrev Table := List (Nat × HID)

/-- The state of the block. `rd`, `wr`, `a20` and `diagEn` are the state of R20; `hist` and `refusals` are the bookkeeping
of R32. The rest are the block's ports as the outside sees them: `commands` are the commands presented and not yet
taken (log 6), `responses`, `devPort` and `diagOut` everything the block has put out so far (log 10). `draws` counts the
draws made, and is the model's own source of free values (log 4). -/
structure State where
  rd : Table
  wr : Table
  a20 : Byte
  diagEn : Bool
  hist : List Cycle
  refusals : List RefuseReason
  commands : List Command
  responses : List Word64
  devPort : List DevXfer
  diagOut : List DiagRec
  draws : Nat
deriving DecidableEq, Repr

/-- `Construct(DIAG_IN, A20_RESET)` (R140, R29): every entry the stub, then 0x92 bound to the A20 handler in both arrays. -/
def State.construct (diagIn : Bool) (a20Reset : Byte) : State where
  rd := [(0x92, hidA20)]
  wr := [(0x92, hidA20)]
  a20 := a20Reset
  diagEn := diagIn
  hist := []
  refusals := []
  commands := []
  responses := []
  devPort := []
  diagOut := []
  draws := 0

/-- The machine right after construction, the only reset (R30, R141), with the open parameters of R7. -/
def State.reset : State := State.construct Config.diagIn Config.a20Reset

/-- What a command's meaning answers. -/
abbrev Result := Host.Outcome State Fault Refusal

end Sys2Proof.Machine
end

