-- ==== Sys2Proof/Machine/Flags.lean ====
section
/-! DEFINITION. The block has no flags (10_state.md R27). The only condition a requester sees is the STATUS field of a response, which
is not stored state (R68); the response word of 30_encoding.md R67 is built here. -/

namespace Sys2Proof.Machine

/-- The STATUS code (R68). -/
def Status.code : Status → BitVec 2
  | .ok => 0b00#2
  | .rejected => 0b01#2

/-- The response word (R67): RDATA in 63:32, zero in 31:2, STATUS in 1:0. -/
def responseWord (status : Status) (rdata : Data) : Word64 := rdata ++ 0#30 ++ status.code

/-- The STATUS field of a response word (R67). -/
def statusField (r : Word64) : BitVec 2 := r.extractLsb' 0 2

/-- The RDATA field of a response word (R67). -/
def rdataField (r : Word64) : Data := r.extractLsb' 32 32

end Sys2Proof.Machine
end

