-- ==== Sys2Proof/Machine/Operands.lean ====
section
/-! DEFINITION. The operand forms of an access: its width, its slots (20_memory.md R44, R48), the straddle predicate
(41_port_access.md R98) and the little-endian composition and split of values (R42). -/

namespace Sys2Proof.Machine

/-- The bytes an access moves (R44), one byte cycle each. -/
def Width.bytes : Width → Nat
  | .w8 => 1
  | .w16 => 2
  | .w32 => 4

/-- `Straddles(p, n)` (R98), in exact arithmetic (R8). -/
def straddles (p : Port) (n : Nat) : Bool := decide (p.toNat + n - 1 > 0xFFFF)

/-- The slot of byte k of an access at p, which is p + k (R100). It is used only where p + k is at most 0xFFFF. -/
def slotAt (p : Port) (k : Nat) : Port := BitVec.ofNat 16 (p.toNat + k)

/-- The slots of an access of n bytes at p, in the order of its cycles (R48). -/
def slots (p : Port) (n : Nat) : List Port := (List.range n).map (slotAt p)

/-- The value of a list of bytes, least significant first (R42). -/
def littleEndian : List Byte → Nat
  | [] => 0
  | b :: bs => b.toNat + 256 * littleEndian bs

/-- Read data: byte k in bits [8k+7:8k], zero-extended to 32 bits (R42, R67). -/
def assemble (bytes : List Byte) : Data := BitVec.ofNat 32 (littleEndian bytes)

/-- Byte k of a value, its bits [8k+7:8k] (R42). -/
def byteOf (v : Data) (k : Nat) : Byte := v.extractLsb' (8 * k) 8

/-- The byte cycles a write of n bytes runs: slot p + k gets byte k, in order (R42, R48). -/
def writeBytes (p : Port) (n : Nat) (v : Data) : List (Port × Byte) :=
  (List.range n).map fun k => (slotAt p k, byteOf v k)

end Sys2Proof.Machine
end

