-- ==== Sys2Proof/Machine/Ops.lean ====
section
/-! DEFINITION. The named operations over the state: the handler arrays (10_state.md R20 to R24), the outputs and bookkeeping
(00_scope.md R10, R11), the draws, refusal (60_exceptions.md R121), and taking a command from the command port. The block has
no exception to take and none to return from (R120, R126): refusal and rejection (41_port_access.md R99) are its only outcomes
beside service. -/

namespace Sys2Proof.Machine

/-- The binding listed for a port number, if one is. -/
def Table.lookup : Table → Nat → Option HID
  | [], _ => none
  | (q, h) :: t, p => if q = p then some h else Table.lookup t p

/-- Entry p of a handler array (R20, R22): a port that is not listed is bound to the stub (R29). -/
def Table.read (t : Table) (p : Port) : HID := (Table.lookup t p.toNat).getD hidStub

/-- List h at port number p, replacing what was listed there and keeping the ports rising. -/
def Table.insert : Table → Nat → HID → Table
  | [], p, h => [(p, h)]
  | (q, g) :: t, p, h =>
    if p < q then (p, h) :: (q, g) :: t
    else if p = q then (p, h) :: t
    else (q, g) :: Table.insert t p h

/-- List nothing at port number p. -/
def Table.erase : Table → Nat → Table
  | [], _ => []
  | (q, g) :: t, p => if q = p then t else (q, g) :: Table.erase t p

/-- `T[p] <- h` (R9), in the canonical form: an entry that holds the stub is not listed. -/
def Table.write (t : Table) (p : Port) (h : HID) : Table :=
  if h = hidStub then Table.erase t p.toNat else Table.insert t p.toNat h

/-- The canonical form of a handler array: ports strictly rising and within the port space, no stub listed. -/
abbrev Table.wf (t : Table) : Prop :=
  t.Pairwise (fun a b => a.1 < b.1) ∧ ∀ e ∈ t, e.1 < portCount ∧ e.2 ≠ hidStub

/-- `RD[p] <- h` (R9, R80). -/
def State.bindRead (s : State) (p : Port) (h : HID) : State := { s with rd := Table.write s.rd p h }

/-- `WR[p] <- h` (R9, R81). -/
def State.bindWrite (s : State) (p : Port) (h : HID) : State := { s with wr := Table.write s.wr p h }

/-- `A20 <- b` (R9, R114). -/
def State.latch (s : State) (b : Byte) : State := { s with a20 := b }

/-- `A20_OUT[7:0]`, which mirrors `A20` at all times (R25). -/
def State.a20Out (s : State) : Byte := s.a20

/-- Append a record to `Hist` (R11). -/
def State.record (s : State) (c : Cycle) : State := { s with hist := s.hist ++ [c] }

/-- Run one transfer on the device port (R72). -/
def State.transfer (s : State) (x : DevXfer) : State := { s with devPort := s.devPort ++ [x] }

/-- `Emit(rec)` (R10, R74). -/
def State.emit (s : State) (r : DiagRec) : State := { s with diagOut := s.diagOut ++ [r] }

/-- `if en == 1: Emit(rec)` (R110, R111). Only the diagnostic output depends on `en` (R26). -/
def State.emitIf (s : State) (en : Bool) (r : DiagRec) : State :=
  { s with diagOut := s.diagOut ++ if en then [r] else [] }

/-- `Respond(status, rdata)` (R10, R67). -/
def State.respond (s : State) (status : Status) (rdata : Data) : State :=
  { s with responses := s.responses ++ [responseWord status rdata] }

/-- `refuse <Reason>` (R10, R66, R121): no cycle, no state change, no output and no response; the refusal mark is set and
never cleared (R32). Log 8. -/
def State.refuse (s : State) (r : RefuseReason) : State := { s with refusals := s.refusals ++ [r] }

/-- The refusal mark (R32). -/
def State.refusalMark (s : State) : Bool := !s.refusals.isEmpty

/-- `DevRead(h, arg)` (R10, R31): a fresh draw, given what the device port carried so far (R72, R73). Log 4. -/
def State.drawByte (s : State) (h : HID) (arg : Port) : Byte × State :=
  (Config.devRead s.draws s.devPort h arg, { s with draws := s.draws + 1 })

/-- The `draw_32` of a rejected read (R67, R99): a fresh draw. Log 5. -/
def State.drawRejected (s : State) (width : Width) (p : Port) : Data × State :=
  (Config.rejectedData s.draws s.hist width p, { s with draws := s.draws + 1 })

/-- What becomes of a presented command before it runs: the encoding is checked first (R66, R123), then that no handler
issued it during a byte cycle (R125). Log 9. -/
def Command.accept (c : Command) : Decoded :=
  match decode c.word with
  | .refused r => .refused r
  | .command i => if c.reentrant then .refused .reentrantCommand else .command i

/-- Take the next command from the command port (R48: one at a time, in the order received). -/
def State.take (s : State) : Option (Command × State) :=
  match s.commands with
  | [] => none
  | c :: rest => some (c, { s with commands := rest })

/-- With no command presented the block waits, unchanged (R27, R142). Log 7. -/
def State.idle (s : State) : State := s

/-- Present a command word as the next command on the command port. -/
def State.present (s : State) (w : Word64) : State :=
  { s with commands := ⟨w, false⟩ :: s.commands }

end Sys2Proof.Machine
end

