-- ==== Sys2Proof/Machine/Handlers.lean ====
section
/-! DEFINITION. The two built-in handlers (42_builtin_handlers.md R110 to R114), served without a device-port transfer. -/

namespace Sys2Proof.Machine

/-- The diagnostic variant of the stubs (R112): one `DiagStub` record when `DIAG.EN` = 1. -/
def reportStub (dir : Dir) (slot arg : Port) (b : Byte) (s : State) : State :=
  s.emitIf s.diagEn (.stub dir arg slot b (Config.portName arg))

/-- `StubRead(slot, arg)` (R110). -/
def stubRead (slot arg : Port) (s : State) : Byte × State := (stubByte, reportStub .read slot arg stubByte s)

/-- `StubWrite(slot, arg, b)` (R111): b is discarded. -/
def stubWrite (slot arg : Port) (b : Byte) (s : State) : State := reportStub .write slot arg b s

/-- `A20Read(arg)` (R113). -/
def a20Read (_arg : Port) (s : State) : Byte × State := (s.a20, s)

/-- `A20Write(arg, b)` (R114). -/
def a20Write (_arg : Port) (b : Byte) (s : State) : State := s.latch b

/-- `DevRead(h, arg)` as a byte cycle sees it: a device-port transfer with `DC_DIR` = 0 (R72, R90). -/
def deviceRead (h : HID) (arg : Port) (s : State) : Byte × State :=
  let (b, s) := s.drawByte h arg
  (b, s.transfer (.read h arg b))

/-- `DevWrite(h, arg, b)`: a device-port transfer with `DC_DIR` = 1 (R72, R91). -/
def deviceWrite (h : HID) (arg : Port) (b : Byte) (s : State) : State := s.transfer (.write h arg b)

end Sys2Proof.Machine
end

