-- ==== Sys2Proof/Machine/ByteCycle.lean ====
section
/-! DEFINITION. Byte cycles (41_port_access.md R90, R91), and the accesses made of them (R94 to R101): every cycle of an access
passes the original port, and a straddling access is rejected before any cycle. -/

namespace Sys2Proof.Machine

/-- What the read handler `h` answers (R90): dispatch on the entry's handler identifier (R21). -/
def answerRead (h : HID) (slot arg : Port) (s : State) : Byte × State :=
  if h = hidStub then stubRead slot arg s
  else if h = hidA20 then a20Read arg s
  else deviceRead h arg s

/-- What the write handler `h` does with a byte (R91). -/
def deliverWrite (h : HID) (slot arg : Port) (b : Byte) (s : State) : State :=
  if h = hidStub then stubWrite slot arg b s
  else if h = hidA20 then a20Write arg b s
  else deviceWrite h arg b s

/-- `ReadCycle(slot, arg)` (R90). The entry is looked up when the cycle starts (R53). -/
def readCycle (slot arg : Port) (s : State) : Byte × State :=
  let h := Table.read s.rd slot
  let (b, s) := answerRead h slot arg s
  (b, s.record (.rd slot h arg b))

/-- `WriteCycle(slot, arg, b)` (R91). -/
def writeCycle (slot arg : Port) (b : Byte) (s : State) : State :=
  let h := Table.read s.wr slot
  (deliverWrite h slot arg b s).record (.wr slot h arg b)

/-- Read cycles through the listed slots, each after the one before it (R48), all with the same argument (R100). -/
def readCycles (arg : Port) : List Port → State → List Byte × State
  | [], s => ([], s)
  | slot :: rest, s =>
    let (b, s) := readCycle slot arg s
    let (bs, s) := readCycles arg rest s
    (b :: bs, s)

/-- Write cycles through the listed slots, each after the one before it (R48), all with the same argument (R100). -/
def writeCycles (arg : Port) : List (Port × Byte) → State → State
  | [], s => s
  | (slot, b) :: rest, s => writeCycles arg rest (writeCycle slot arg b s)

/-- `Reject(R, width, p, none)` (R99): no cycle, a `DiagReject` record always, and an undefined `RDATA`. -/
def rejectRead (width : Width) (p : Port) (s : State) : State :=
  let (d, s) := (s.emit (.reject .read width p none)).drawRejected width p
  s.respond .rejected d

/-- `Reject(W, width, p, v)` (R99): no cycle, a `DiagReject` record always, and `RDATA` = 0. -/
def rejectWrite (width : Width) (p : Port) (v : Data) (s : State) : State :=
  (s.emit (.reject .write width p (some v))).respond .rejected 0#32

/-- A serviced read (R92, R94, R95). -/
def serviceRead (width : Width) (p : Port) (s : State) : State :=
  let (bytes, s) := readCycles p (slots p width.bytes) s
  s.respond .ok (assemble bytes)

/-- A serviced write (R93, R96, R97). -/
def serviceWrite (width : Width) (p : Port) (v : Data) (s : State) : State :=
  (writeCycles p (writeBytes p width.bytes v) s).respond .ok 0#32

/-- A read access: rejection is decided before any cycle (R123). -/
def readAccess (width : Width) (p : Port) (s : State) : Result :=
  if straddles p width.bytes then .next (rejectRead width p s) else .next (serviceRead width p s)

/-- A write access: rejection is decided before any cycle (R123). -/
def writeAccess (width : Width) (p : Port) (v : Data) (s : State) : Result :=
  if straddles p width.bytes then .next (rejectWrite width p v s) else .next (serviceWrite width p v s)

end Sys2Proof.Machine
end

