-- ==== Sys2Proof/Machine/PortAccess.lean ====
section
/-! DEFINITION. The six access commands (41_port_access.md R92 to R97), over the shared accesses of ByteCycle.lean. -/

namespace Sys2Proof.Machine

/-- READ8 (R92). A single byte never straddles (R98). -/
def execRead8 (p : Port) (s : State) : Result := readAccess .w8 p s

/-- READ16 (R94). -/
def execRead16 (p : Port) (s : State) : Result := readAccess .w16 p s

/-- READ32 (R95). -/
def execRead32 (p : Port) (s : State) : Result := readAccess .w32 p s

/-- WRITE8 (R93). A single byte never straddles (R98). -/
def execWrite8 (p : Port) (v : BitVec 8) (s : State) : Result := writeAccess .w8 p (v.setWidth 32) s

/-- WRITE16 (R96). -/
def execWrite16 (p : Port) (v : BitVec 16) (s : State) : Result := writeAccess .w16 p (v.setWidth 32) s

/-- WRITE32 (R97). -/
def execWrite32 (p : Port) (v : BitVec 32) (s : State) : Result := writeAccess .w32 p v s

end Sys2Proof.Machine
end

