-- ==== Sys2Proof/Machine/Registration.lean ====
section
/-! DEFINITION. The registration commands (40_registration.md R80, R81). -/

namespace Sys2Proof.Machine

/-- REG_READ (R80). A built-in identifier, which no accepted word carries, is refused (R84). Log 11. -/
def execRegRead (p : Port) (h : HID) (s : State) : Result :=
  if externalHid h then .next ((s.bindRead p h).respond .ok 0#32) else .next (s.refuse .builtinHandlerId)

/-- REG_WRITE (R81). A built-in identifier, which no accepted word carries, is refused (R84). Log 11. -/
def execRegWrite (p : Port) (h : HID) (s : State) : Result :=
  if externalHid h then .next ((s.bindWrite p h).respond .ok 0#32) else .next (s.refuse .builtinHandlerId)

end Sys2Proof.Machine
end

