-- ==== Sys2Proof/Machine/Dispatch.lean ====
section
/-! DEFINITION. The dispatch of a decoded command to its meaning: one arm per row of spec/opcode_table.json. -/

namespace Sys2Proof.Machine

/-- One command, performed to completion (R2, R48). -/
def exec (i : Instr) (s : State) : Host.Outcome State Fault Refusal :=
  match i with
  | .read8 p => Sys2Proof.Machine.execRead8 p s
  | .read16 p => Sys2Proof.Machine.execRead16 p s
  | .read32 p => Sys2Proof.Machine.execRead32 p s
  | .write8 p v => Sys2Proof.Machine.execWrite8 p v s
  | .write16 p v => Sys2Proof.Machine.execWrite16 p v s
  | .write32 p v => Sys2Proof.Machine.execWrite32 p v s
  | .regRead p h => Sys2Proof.Machine.execRegRead p h s
  | .regWrite p h => Sys2Proof.Machine.execRegWrite p h s

end Sys2Proof.Machine
end

