-- ==== Sys2Proof/Machine/Step.lean ====
section
/-! DEFINITION. One step of the machine: take the next command presented, decode it, and perform or refuse it
(00_scope.md R2, 20_memory.md R48, 60_exceptions.md R121). -/

namespace Sys2Proof.Machine

/-- One command, from the command port to its response. With none presented, the block waits. -/
def step (s : State) : Host.Outcome State Fault Refusal :=
  match s.take with
  | none => .next s.idle
  | some (c, s) =>
    match c.accept with
    | .refused r => .next (s.refuse r)
    | .command i => exec i s

/-- The state with the word of an `nbits`-bit row presented as the next command, before any other (log 6). -/
def State.withFetchWord (s : State) (nbits w : Nat) : State := s.present (BitVec.ofNat 64 (w % 2 ^ nbits))

end Sys2Proof.Machine
end

