-- ==== Sys2Proof/Machine/Assembler.lean ====
section
/-! DEFINITION. The assembler syntax (30_encoding.md R70) and the pseudo-instructions (R71). The block never sees text: an assembled line is
the commands it stands for, in order. Lexical details the spec leaves open are in log 15. -/

namespace Sys2Proof

/-- The three pseudo-instructions of R71. -/
inductive Pseudo where
  | regReadSpan (p : Port) (n : Nat) (h : HID)
  | regWriteSpan (p : Port) (n : Nat) (h : HID)
  | regRw (p : Port) (hr hw : HID)
deriving DecidableEq, Repr

/-- The ports p, p+1, ..., p+n-1 of a span (R71). -/
def spanPorts (p : Port) (n : Nat) : List Port := (List.range n).map fun k => BitVec.ofNat 16 (p.toNat + k)

/-- The requirements of a span (R71): 1 ≤ n and p+n-1 ≤ 0xFFFF, in exact arithmetic (R8). -/
def spanFits (p : Port) (n : Nat) : Bool := decide (1 ≤ n ∧ p.toNat + n - 1 ≤ 0xFFFF)

/-- The expansion of a pseudo-instruction (R71), none where a span does not meet its requirements. -/
def Pseudo.expand : Pseudo → Option (List Instr)
  | .regReadSpan p n h => if spanFits p n then some ((spanPorts p n).map fun q => .regRead q h) else none
  | .regWriteSpan p n h => if spanFits p n then some ((spanPorts p n).map fun q => .regWrite q h) else none
  | .regRw p hr hw => some [.regRead p hr, .regWrite p hw]

/-- Why a line is an assembler error, which is not a command (R70). -/
inductive AsmError where
  | unknownMnemonic
  | badOperands
  | operandOutOfRange
deriving DecidableEq, Repr

/-- An assembled line: the commands it stands for, in order, or an error. -/
inductive AsmLine where
  | commands (is : List Instr)
  | error (e : AsmError)
deriving DecidableEq, Repr

/-- A parsed operand: a number, or a handler `h<n>` (R70). -/
inductive AsmOperand where
  | number (n : Nat)
  | handler (n : Nat)
deriving DecidableEq, Repr

/-- The value of a digit in base 10 or 16. -/
def digitValue (base : Nat) (c : Char) : Option Nat :=
  let n := c.toNat
  let v := if 48 ≤ n ∧ n ≤ 57 then n - 48 else if 97 ≤ n ∧ n ≤ 102 then n - 87 else if 65 ≤ n ∧ n ≤ 70 then n - 55 else 16
  if v < base then some v else none

/-- The number that the digits spell after a value already read. -/
def digitsValue (base : Nat) : List Char → Nat → Option Nat
  | [], acc => some acc
  | c :: cs, acc => (digitValue base c).bind fun d => digitsValue base cs (base * acc + d)

/-- A number, decimal or 0x-prefixed hexadecimal (R70). -/
def parseNumber : List Char → Option Nat
  | '0' :: 'x' :: c :: cs => digitsValue 16 (c :: cs) 0
  | c :: cs => digitsValue 10 (c :: cs) 0
  | [] => none

/-- An operand. -/
def parseOperand : List Char → Option AsmOperand
  | 'h' :: cs => (parseNumber cs).map .handler
  | cs => (parseNumber cs).map .number

/-- A space or a tab. -/
def isBlank (c : Char) : Bool := c = ' ' || c = '\t'

/-- The line before its comment: `;` starts one (R70). -/
def withoutComment : List Char → List Char
  | [] => []
  | c :: cs => if c = ';' then [] else c :: withoutComment cs

/-- The text without the blanks at its two ends. -/
def trimBlanks (cs : List Char) : List Char := ((cs.dropWhile isBlank).reverse.dropWhile isBlank).reverse

/-- The text between commas. -/
def splitCommas : List Char → List (List Char)
  | [] => [[]]
  | c :: cs =>
    match splitCommas cs with
    | [] => [[c]]
    | field :: fields => if c = ',' then [] :: field :: fields else (c :: field) :: fields

/-- All operands of a line, or none where one of them is no operand. -/
def parseOperands : List (List Char) → Option (List AsmOperand)
  | [] => some []
  | f :: fs => (parseOperand (trimBlanks f)).bind fun o => (parseOperands fs).map (o :: ·)

/-- A port operand is at most 0xFFFF (R70). -/
def portOperand (n : Nat) : Option Port := if n ≤ 0xFFFF then some (BitVec.ofNat 16 n) else none

/-- A data operand fits its width of `bits` bits (R70). -/
def dataOperand (bits n : Nat) : Option (BitVec bits) := if n < 2 ^ bits then some (BitVec.ofNat bits n) else none

/-- A handler operand lies from 2 to 0xFFFFFFFF (R70). -/
def handlerOperand (n : Nat) : Option HID := if 2 ≤ n ∧ n ≤ 0xFFFFFFFF then some (BitVec.ofNat 32 n) else none

/-- The line for an instruction whose operands are in range where there is one. -/
def oneCommand : Option Instr → AsmLine
  | some i => .commands [i]
  | none => .error .operandOutOfRange

/-- The line for a pseudo-instruction whose operands are in range where there is one, expanded (R71). -/
def expanded : Option Pseudo → AsmLine
  | some ps =>
    match ps.expand with
    | some is => .commands is
    | none => .error .operandOutOfRange
  | none => .error .operandOutOfRange

/-- The mnemonics of R70 and R71 with their operands. -/
def assembleOperands (mnemonic : List Char) (os : List AsmOperand) : AsmLine :=
  if mnemonic = "READ8".toList then
    match os with
    | [.number p] => oneCommand ((portOperand p).map .read8)
    | _ => .error .badOperands
  else if mnemonic = "READ16".toList then
    match os with
    | [.number p] => oneCommand ((portOperand p).map .read16)
    | _ => .error .badOperands
  else if mnemonic = "READ32".toList then
    match os with
    | [.number p] => oneCommand ((portOperand p).map .read32)
    | _ => .error .badOperands
  else if mnemonic = "WRITE8".toList then
    match os with
    | [.number p, .number v] => oneCommand ((portOperand p).bind fun p => (dataOperand 8 v).map (.write8 p))
    | _ => .error .badOperands
  else if mnemonic = "WRITE16".toList then
    match os with
    | [.number p, .number v] => oneCommand ((portOperand p).bind fun p => (dataOperand 16 v).map (.write16 p))
    | _ => .error .badOperands
  else if mnemonic = "WRITE32".toList then
    match os with
    | [.number p, .number v] => oneCommand ((portOperand p).bind fun p => (dataOperand 32 v).map (.write32 p))
    | _ => .error .badOperands
  else if mnemonic = "REG_READ".toList then
    match os with
    | [.number p, .handler h] => oneCommand ((portOperand p).bind fun p => (handlerOperand h).map (.regRead p))
    | _ => .error .badOperands
  else if mnemonic = "REG_WRITE".toList then
    match os with
    | [.number p, .handler h] => oneCommand ((portOperand p).bind fun p => (handlerOperand h).map (.regWrite p))
    | _ => .error .badOperands
  else if mnemonic = "REG_READ_SPAN".toList then
    match os with
    | [.number p, .number n, .handler h] =>
      expanded ((portOperand p).bind fun p => (handlerOperand h).map (.regReadSpan p n))
    | _ => .error .badOperands
  else if mnemonic = "REG_WRITE_SPAN".toList then
    match os with
    | [.number p, .number n, .handler h] =>
      expanded ((portOperand p).bind fun p => (handlerOperand h).map (.regWriteSpan p n))
    | _ => .error .badOperands
  else if mnemonic = "REG_RW".toList then
    match os with
    | [.number p, .handler hr, .handler hw] =>
      expanded ((portOperand p).bind fun p => (handlerOperand hr).bind fun hr => (handlerOperand hw).map (.regRw p hr))
    | _ => .error .badOperands
  else .error .unknownMnemonic

/-- One line (R70): one command or pseudo-instruction, mnemonic first, operands separated by commas. DESIGN CHOICE (log 15, R70
is silent): blanks before the mnemonic, around operands and at the end of the line are skipped, and a line with nothing before
its comment is no command. -/
def assembleLine (line : List Char) : AsmLine :=
  let text := trimBlanks (withoutComment line)
  if text = [] then .commands []
  else
    let mnemonic := text.takeWhile (!isBlank ·)
    match parseOperands (splitCommas (text.dropWhile (!isBlank ·))) with
    | some os => assembleOperands mnemonic os
    | none => .error .badOperands

end Sys2Proof
end

