-- ==== Sys2Proof/Safety.lean ====
section
/-! DEFINITION. The terms claims are stated in: what a list of byte cycles means for the block and its ports (R72, R112, R114),
a serviced, rejected or refused command (60_exceptions.md R121), runs, and the invariant every step keeps. None of these is used
by the step: they say from outside what it must do. -/

namespace Sys2Proof.Machine

/-- The slot a cycle dispatched through (R11). -/
def Cycle.slot : Cycle → Port
  | .rd slot _ _ _ => slot
  | .wr slot _ _ _ => slot

/-- The triggering port a cycle passed (R11, R100). -/
def Cycle.arg : Cycle → Port
  | .rd _ _ arg _ => arg
  | .wr _ _ arg _ => arg

/-- The device-port transfer of a cycle: one through an external handler, none through a built-in one (R72). -/
def Cycle.transfer : Cycle → Option DevXfer
  | .rd _ h arg b => if 2 ≤ h.toNat then some (.read h arg b) else none
  | .wr _ h arg b => if 2 ≤ h.toNat then some (.write h arg b) else none

/-- The `DiagStub` record a cycle gives when `DIAG.EN` = 1: one through the stub, none otherwise (R112, R113, R114). -/
def Cycle.stubRecord : Cycle → Option DiagRec
  | .rd slot h arg b => if h = hidStub then some (.stub .read arg slot b (Config.portName arg)) else none
  | .wr slot h arg b => if h = hidStub then some (.stub .write arg slot b (Config.portName arg)) else none

/-- The diagnostic records of a list of cycles (R26, R112). -/
def stubRecords (en : Bool) (cs : List Cycle) : List DiagRec := if en then cs.filterMap Cycle.stubRecord else []

/-- The latch after a cycle: only a write through the A20 handler changes it (R114). -/
def Cycle.latched (a : Byte) : Cycle → Byte
  | .rd _ _ _ _ => a
  | .wr _ h _ b => if h = hidA20 then b else a

/-- The latch after a list of cycles. -/
def latchAfter (a : Byte) (cs : List Cycle) : Byte := cs.foldl Cycle.latched a

/-- Whether a cycle writes the latch. -/
def Cycle.writesLatch : Cycle → Bool
  | .rd _ _ _ _ => false
  | .wr _ h _ _ => h = hidA20

/-- The byte of a read cycle, given the latch and the device-port transfers before it (R90, R110, R113, R31): 0xFF through the
stub, the latch through the A20 handler, some draw of the device otherwise. -/
def Cycle.answered (a : Byte) (port : List DevXfer) : Cycle → Prop
  | .rd _ h arg b =>
    (h = hidStub → b = stubByte) ∧ (h = hidA20 → b = a) ∧ (2 ≤ h.toNat → ∃ n, b = Config.devRead n port h arg)
  | .wr _ _ _ _ => True

/-- Every cycle of a list is answered, each after the ones before it (R48), given the latch and the device-port transfers
before them. -/
inductive AnsweredAll (a : Byte) : List DevXfer → List Cycle → Prop where
  | nil (port : List DevXfer) : AnsweredAll a port []
  | cons {port : List DevXfer} {cs : List Cycle} {c : Cycle} (head : c.answered a port)
    (tail : AnsweredAll a (port ++ [c].filterMap Cycle.transfer) cs) : AnsweredAll a port (c :: cs)

/-- Whether the byte of a cycle is a device's answer: a read through an external handler (R31). -/
def Cycle.isDeviceRead : Cycle → Bool
  | .rd _ h _ _ => decide (2 ≤ h.toNat)
  | .wr _ _ _ _ => false

/-- A cycle without the byte a device chose: its slot, handler and argument, and the byte of every other cycle. -/
def Cycle.withoutDeviceByte : Cycle → Cycle
  | .rd slot h arg b => .rd slot h arg (if 2 ≤ h.toNat then 0#8 else b)
  | .wr slot h arg b => .wr slot h arg b

/-- From `s` to `t` the block ran exactly the cycles `cs`, with everything they mean for its outputs and its latch, and
changed nothing else but its responses. -/
structure Ran (s t : State) (cs : List Cycle) : Prop where
  hist : t.hist = s.hist ++ cs
  devPort : t.devPort = s.devPort ++ cs.filterMap Cycle.transfer
  diagOut : t.diagOut = s.diagOut ++ stubRecords s.diagEn cs
  a20 : t.a20 = latchAfter s.a20 cs
  rd : t.rd = s.rd
  wr : t.wr = s.wr
  diagEn : t.diagEn = s.diagEn
  refusals : t.refusals = s.refusals
  commands : t.commands = s.commands

/-- A serviced access (R121): its cycles, and the response `OK` with `rdata` (R67). -/
structure Serviced (s t : State) (cs : List Cycle) (rdata : Data) : Prop where
  ran : Ran s t cs
  responses : t.responses = s.responses ++ [responseWord .ok rdata]

/-- A rejected access (R99): no cycle and no state change, the record `r`, and the response `REJECTED` with `rdata`. -/
structure Rejected (s t : State) (r : DiagRec) (rdata : Data) : Prop where
  hist : t.hist = s.hist
  devPort : t.devPort = s.devPort
  diagOut : t.diagOut = s.diagOut ++ [r]
  a20 : t.a20 = s.a20
  rd : t.rd = s.rd
  wr : t.wr = s.wr
  diagEn : t.diagEn = s.diagEn
  refusals : t.refusals = s.refusals
  commands : t.commands = s.commands
  responses : t.responses = s.responses ++ [responseWord .rejected rdata]

/-- A refused command (R66, R121): the refusal is recorded, and nothing else changes. -/
def refusedAs (s : State) (r : RefuseReason) : State := { s with refusals := s.refusals ++ [r] }

/-- The machine after `k` steps (it is `Sys2Proof.core.run`: `core_run_eq` in Laws/Run.lean). -/
def runSteps : Nat → State → Result
  | 0, s => .next s
  | k + 1, s =>
    match step s with
    | .next t => runSteps k t
    | .fault r => .fault r
    | .refused r => .refused r

/-- A list of decoded commands performed one after the other (R48). -/
def execAll : List Instr → State → Result
  | [], s => .next s
  | i :: is, s =>
    match exec i s with
    | .next t => execAll is t
    | .fault r => .fault r
    | .refused r => .refused r

end Sys2Proof.Machine

namespace Sys2Proof

/-- A read access. -/
def Instr.isRead : Instr → Bool
  | .read8 _ | .read16 _ | .read32 _ => true
  | _ => false

/-- A write access. -/
def Instr.isWrite : Instr → Bool
  | .write8 _ _ | .write16 _ _ | .write32 _ _ => true
  | _ => false

/-- A registration in the read array. -/
def Instr.isRegRead : Instr → Bool
  | .regRead _ _ => true
  | _ => false

/-- A registration in the write array. -/
def Instr.isRegWrite : Instr → Bool
  | .regWrite _ _ => true
  | _ => false

/-- The byte cycles a command runs when it is serviced (R44): none for a registration (R80, R81). -/
def Instr.cycleCount : Instr → Nat
  | .read8 _ | .write8 _ _ => 1
  | .read16 _ | .write16 _ _ => 2
  | .read32 _ | .write32 _ _ => 4
  | .regRead _ _ | .regWrite _ _ => 0

end Sys2Proof

namespace Sys2Proof.Machine

/-- The read entry at `p` after the presented commands, given what it was before them (R82): the HID of the last accepted
REG_READ at `p`, if there is one. -/
def lastReadBinding (p : Port) : List Command → HID → HID
  | [], h => h
  | c :: cs, h =>
    lastReadBinding p cs (match c.accept with
      | .command (.regRead q g) => if q = p then g else h
      | _ => h)

/-- The write entry at `p` after the presented commands, given what it was before them (R82). -/
def lastWriteBinding (p : Port) : List Command → HID → HID
  | [], h => h
  | c :: cs, h =>
    lastWriteBinding p cs (match c.accept with
      | .command (.regWrite q g) => if q = p then g else h
      | _ => h)

/-- A `DiagStub` record. -/
def DiagRec.isStub : DiagRec → Bool
  | .stub _ _ _ _ _ => true
  | .reject _ _ _ _ => false

/-- The invariant of the block, which construction establishes and every step keeps. -/
structure Inv (s : State) : Prop where
  /-- The read array is in its canonical form. -/
  rdCanonical : Table.wf s.rd
  /-- The write array is in its canonical form. -/
  wrCanonical : Table.wf s.wr
  /-- Only 0x92 may read through the A20 handler (R34, R115). -/
  rdA20 : ∀ p, Table.read s.rd p = hidA20 → p = a20Port
  /-- Only 0x92 may write through the A20 handler (R34, R115). -/
  wrA20 : ∀ p, Table.read s.wr p = hidA20 → p = a20Port
  /-- The device port carried exactly the external cycles, in order (R72). -/
  transfers : s.devPort = s.hist.filterMap Cycle.transfer
  /-- The stub records are those of the stub cycles, in order, or none (R26, R112). -/
  reports : s.diagOut.filter DiagRec.isStub = stubRecords s.diagEn s.hist
  /-- Every read through the stub returned 0xFF (R110). -/
  stubReads : ∀ slot arg b, Cycle.rd slot hidStub arg b ∈ s.hist → b = stubByte
  /-- A cycle's slot lies 0 to 3 above its triggering port, without wrapping (R98, R100). -/
  slotRange : ∀ c ∈ s.hist, c.arg.toNat ≤ c.slot.toNat ∧ c.slot.toNat ≤ c.arg.toNat + 3

end Sys2Proof.Machine
end

