-- ==== Sys2Proof/Certificates/Slice0/Obligations.lean ====
section
/-! DEFINITION. The statements for the provers. Each docstring names the rule of spec/ it formalises, or the sections it rests on. The
terms are those of Sys2Proof/Safety.lean. -/

open Sys2Proof Sys2Proof.Machine

/-! ### Encoding -/

/-- Every well-formed command decodes from its own word, with every operand at every value (30_encoding.md sections 1 and 4). -/
def Obligations.EncodedCommandDecodesToItself : Prop :=
  ∀ i : Instr, i.wf = true → decode (encode i) = .command i

/-- An accepted word is the encoding of the well-formed command it decodes to, so no two words are one command and no bit of
an accepted word is ignored (30_encoding.md section 1). -/
def Obligations.AcceptedWordIsTheEncodingOfItsCommand : Prop :=
  ∀ (w : Word64) (i : Instr), decode w = .command i → i.wf = true ∧ encode i = w

/-- R66: the checks, in its order, on the word as a number; the command it stands for otherwise; and what a refused command
does: it sets the refusal mark and does nothing else. -/
def Obligations.DecodeRefusesAtFirstFailingCheck : Prop :=
  (∀ w : Word64, ∀ rsv cmd payload : Nat, ∀ p : Port,
    rsv = w.toNat / 2 ^ 52 → cmd = w.toNat % 16 → payload = w.toNat / 2 ^ 20 % 2 ^ 32 →
    p.toNat = w.toNat / 2 ^ 4 % 2 ^ 16 →
    (rsv ≠ 0 → decode w = .refused .reservedBitsSet) ∧
    (rsv = 0 → cmd = 0 ∨ cmd = 4 ∨ 10 ≤ cmd → decode w = .refused .reservedCommand) ∧
    (rsv = 0 → cmd = 1 ∨ cmd = 2 ∨ cmd = 3 → payload ≠ 0 → decode w = .refused .nonzeroUnusedPayload) ∧
    (rsv = 0 → cmd = 5 → payload / 2 ^ 8 ≠ 0 → decode w = .refused .nonzeroUnusedPayload) ∧
    (rsv = 0 → cmd = 6 → payload / 2 ^ 16 ≠ 0 → decode w = .refused .nonzeroUnusedPayload) ∧
    (rsv = 0 → cmd = 8 ∨ cmd = 9 → payload < 2 → decode w = .refused .builtinHandlerId) ∧
    (rsv = 0 → cmd = 1 → payload = 0 → decode w = .command (.read8 p)) ∧
    (rsv = 0 → cmd = 2 → payload = 0 → decode w = .command (.read16 p)) ∧
    (rsv = 0 → cmd = 3 → payload = 0 → decode w = .command (.read32 p)) ∧
    (rsv = 0 → cmd = 5 → payload / 2 ^ 8 = 0 → decode w = .command (.write8 p (BitVec.ofNat 8 payload))) ∧
    (rsv = 0 → cmd = 6 → payload / 2 ^ 16 = 0 → decode w = .command (.write16 p (BitVec.ofNat 16 payload))) ∧
    (rsv = 0 → cmd = 7 → decode w = .command (.write32 p (BitVec.ofNat 32 payload))) ∧
    (rsv = 0 → cmd = 8 → 2 ≤ payload → decode w = .command (.regRead p (BitVec.ofNat 32 payload))) ∧
    (rsv = 0 → cmd = 9 → 2 ≤ payload → decode w = .command (.regWrite p (BitVec.ofNat 32 payload)))) ∧
  (∀ (s : State) (c : Command) (rest : List Command) (r : RefuseReason),
    s.commands = c :: rest → decode c.word = .refused r →
    step s = .next (refusedAs { s with commands := rest } r) ∧ (refusedAs { s with commands := rest } r).refusalMark = true)

/-- R75 and R76: a word selects a row exactly when its masked bits match, a registration row only with a payload of 2 or more;
it then is that row's command with the fields of R60. A word that selects no row is refused. -/
def Obligations.WordSelectsRowExactlyByMask : Prop :=
  ∀ (w : Word64) (p : Port) (v : Data), p = w.extractLsb' 4 16 → v = w.extractLsb' 20 32 →
    (w &&& 0xFFFFFFFFFFF0000F#64 = 0x1#64 ↔ decode w = .command (.read8 p)) ∧
    (w &&& 0xFFFFFFFFFFF0000F#64 = 0x2#64 ↔ decode w = .command (.read16 p)) ∧
    (w &&& 0xFFFFFFFFFFF0000F#64 = 0x3#64 ↔ decode w = .command (.read32 p)) ∧
    (w &&& 0xFFFFFFFFF000000F#64 = 0x5#64 ↔ decode w = .command (.write8 p (w.extractLsb' 20 8))) ∧
    (w &&& 0xFFFFFFF00000000F#64 = 0x6#64 ↔ decode w = .command (.write16 p (w.extractLsb' 20 16))) ∧
    (w &&& 0xFFF000000000000F#64 = 0x7#64 ↔ decode w = .command (.write32 p v)) ∧
    (w &&& 0xFFF000000000000F#64 = 0x8#64 ∧ 2 ≤ v.toNat ↔ decode w = .command (.regRead p v)) ∧
    (w &&& 0xFFF000000000000F#64 = 0x9#64 ∧ 2 ≤ v.toNat ↔ decode w = .command (.regWrite p v)) ∧
    ((∀ r ∈ opcodeRows, r.selects w = false) ↔ ∃ e, decode w = .refused e)

/-- R77: the four worked encodings, each also decoding back to its command. -/
def Obligations.WorkedEncodings : Prop :=
  encode (.write8 0x92#16 0x02#8) = 0x0000000000200925#64 ∧
  encode (.read8 0x92#16) = 0x0000000000000921#64 ∧
  encode (.write16 0x3F4#16 0x1234#16) = 0x0000000123403F46#64 ∧
  encode (.read32 0xFFFC#16) = 0x00000000000FFFC3#64 ∧
  decode 0x0000000000200925#64 = .command (.write8 0x92#16 0x02#8) ∧
  decode 0x0000000000000921#64 = .command (.read8 0x92#16) ∧
  decode 0x0000000123403F46#64 = .command (.write16 0x3F4#16 0x1234#16) ∧
  decode 0x00000000000FFFC3#64 = .command (.read32 0xFFFC#16)

/-- Words written out in 95_test_vectors.md part 2, one accepted word a command and one refused word a reason of R66. -/
def Obligations.SampleWordsDecode : Prop :=
  decode 0x0000000000000601#64 = .command (.read8 0x60#16) ∧
  decode 0x0000000000010002#64 = .command (.read16 0x1000#16) ∧
  decode 0x00000000000FFFD3#64 = .command (.read32 0xFFFD#16) ∧
  decode 0x0000000005500605#64 = .command (.write8 0x60#16 0x55#8) ∧
  decode 0x0000000BEEFFFFE6#64 = .command (.write16 0xFFFE#16 0xBEEF#16) ∧
  decode 0x000AABBCCDD10007#64 = .command (.write32 0x1000#16 0xAABBCCDD#32) ∧
  decode 0x0000000000200608#64 = .command (.regRead 0x60#16 2#32) ∧
  decode 0x0000000001E00929#64 = .command (.regWrite 0x92#16 30#32) ∧
  decode 0x0010000000000600#64 = .refused .reservedBitsSet ∧
  decode 0x000000000000060A#64 = .refused .reservedCommand ∧
  decode 0x0000001000000606#64 = .refused .nonzeroUnusedPayload ∧
  decode 0x0000000000100929#64 = .refused .builtinHandlerId

/-- The encoding of a line is `CMD | PORT<<4 | PAYLOAD<<20` (30_encoding.md section 4). -/
def Obligations.EncodingIsCmdPortPayloadShifted : Prop :=
  ∀ i : Instr, encode i = i.cmdCode.setWidth 64 ||| i.port.setWidth 64 <<< 4 ||| i.payload.setWidth 64 <<< 20

/-- The fields of a response word (30_encoding.md section 2). -/
def Obligations.ResponseWordFields : Prop :=
  ∀ (st : Status) (d : Data),
    (responseWord st d).extractLsb' 0 2 = (if st = .ok then 0b00#2 else 0b01#2) ∧
    (responseWord st d).extractLsb' 2 30 = 0#30 ∧
    (responseWord st d).extractLsb' 32 32 = d

/-- R71: the three pseudo-instructions, and the requirements of a span. -/
def Obligations.PseudoInstructionsExpandInOrder : Prop :=
  (∀ (p : Port) (n : Nat) (h : HID), 1 ≤ n ∧ p.toNat + n - 1 ≤ 0xFFFF →
    ∃ rs ws, (Pseudo.regReadSpan p n h).expand = some rs ∧ (Pseudo.regWriteSpan p n h).expand = some ws ∧
      rs.length = n ∧ ws.length = n ∧
      ∀ k, k < n → ∃ q : Port, q.toNat = p.toNat + k ∧ rs[k]? = some (.regRead q h) ∧ ws[k]? = some (.regWrite q h)) ∧
  (∀ (p : Port) (n : Nat) (h : HID), ¬ (1 ≤ n ∧ p.toNat + n - 1 ≤ 0xFFFF) →
    (Pseudo.regReadSpan p n h).expand = none ∧ (Pseudo.regWriteSpan p n h).expand = none) ∧
  (∀ (p : Port) (hr hw : HID), (Pseudo.regRw p hr hw).expand = some [.regRead p hr, .regWrite p hw])

/-! ### Steps and outcomes -/

/-- A step takes the next command presented, moves past it, and runs what it decodes to; a word placed by `withFetchWord` is
that next command (00_scope.md section 1, 20_memory.md section 6; log 6). -/
def Obligations.StepRunsTheDecodedCommand : Prop :=
  (∀ (s : State) (w : Word64) (rest : List Command) (i : Instr),
    s.commands = ⟨w, false⟩ :: rest → decode w = .command i → step s = exec i { s with commands := rest }) ∧
  (∀ (s : State) (n w : Nat) (i : Instr), decode (BitVec.ofNat 64 (w % 2 ^ n)) = .command i →
    step (s.withFetchWord n w) = exec i s)

/-- With no command presented the block waits unchanged. The model's choice, log 7 (10_state.md section 3: the block is driven
by the command stream). -/
def Obligations.StepWaitsForACommand : Prop :=
  ∀ s : State, s.commands = [] → step s = .next s

/-- A well-encoded command that a handler issues during its own byte cycle is refused: the mark is set, and nothing else
changes (60_exceptions.md sections 1 and 2, R125; that the encoding is checked first is log 9). -/
def Obligations.ReentrantCommandIsRefused : Prop :=
  ∀ (s : State) (w : Word64) (rest : List Command) (i : Instr),
    s.commands = ⟨w, true⟩ :: rest → decode w = .command i →
    step s = .next (refusedAs { s with commands := rest } .reentrantCommand)

/-- R120: a step never faults, and every command the decoder accepts completes with exactly one response and no refusal. -/
def Obligations.AcceptedCommandCompletesWithResponse : Prop :=
  (∀ s : State, ∃ t, step s = .next t) ∧
  (∀ (s : State) (w : Word64) (rest : List Command) (i : Instr),
    s.commands = ⟨w, false⟩ :: rest → decode w = .command i →
    ∃ t st d, step s = .next t ∧ t.responses = s.responses ++ [responseWord st d] ∧ t.refusals = s.refusals ∧
      t.commands = rest)

/-- Each presented command has exactly one of the outcomes of 60_exceptions.md section 1: serviced, rejected, or refused; the
last two change no state of the block but the refusal mark. -/
def Obligations.EveryCommandHasOneOutcome : Prop :=
  ∀ (s : State) (c : Command) (rest : List Command), s.commands = c :: rest →
    ∃ t, step s = .next t ∧ t.commands = rest ∧
      ((∃ d, t.responses = s.responses ++ [responseWord .ok d] ∧ t.refusals = s.refusals) ∨
       (∃ r d, r.isStub = false ∧ Rejected { s with commands := rest } t r d) ∨
       (∃ r, t = refusedAs { s with commands := rest } r))

/-- R32: the history only grows, the refusal mark is set by any refused command, and it is never cleared, in any run. -/
def Obligations.HistoryGrowsAndRefusalMarkStays : Prop :=
  (∀ (k : Nat) (s t : State), runSteps k s = .next t →
    s.hist <+: t.hist ∧ s.refusals <+: t.refusals ∧ (s.refusalMark = true → t.refusalMark = true)) ∧
  (∀ (s : State) (c : Command) (rest : List Command) (r : RefuseReason), s.commands = c :: rest → c.accept = .refused r →
    ∃ t, step s = .next t ∧ t.refusalMark = true)

/-- The commands are performed one at a time in the order received, and no command is affected by those that follow it
(20_memory.md section 6). The two runs compared make equal draws, and that is the model's choice: equal device answers by log 4,
and equal `RDATA` of rejected reads by log 5, a value no claim about the hardware may rely on (R99). -/
def Obligations.CommandsRunInOrderWithoutLookahead : Prop :=
  ∀ (cs rest : List Command) (s : State), ∃ t : State,
    runSteps cs.length { s with commands := cs } = .next { t with commands := [] } ∧
    runSteps cs.length { s with commands := cs ++ rest } = .next { t with commands := rest }

/-! ### Construction -/

/-- R29 and R140: the values after construction, for every configuration bit and every A20_RESET; the model's reset is the
construction with the open parameters. -/
def Obligations.ConstructionValues : Prop :=
  (∀ (d : Bool) (a : Byte) (p : Port),
    Table.read (State.construct d a).rd p = (if p = 0x92#16 then hidA20 else hidStub) ∧
    Table.read (State.construct d a).wr p = (if p = 0x92#16 then hidA20 else hidStub)) ∧
  (∀ (d : Bool) (a : Byte),
    (State.construct d a).a20 = a ∧ (State.construct d a).a20Out = a ∧ (State.construct d a).diagEn = d ∧
    (State.construct d a).hist = [] ∧ (State.construct d a).refusalMark = false ∧
    (State.construct d a).devPort = [] ∧ (State.construct d a).diagOut = []) ∧
  State.reset = State.construct Config.diagIn Config.a20Reset

/-! ### Registration -/

/-- R80, whole: the words of REG_READ, what it does, what it leaves alone (`t` differs from `s` in the read array and the
response only), that it replaces the A20 read capability for the rest of the session, and its example. -/
def Obligations.RegReadBindsTheReadEntry : Prop :=
  (∀ w : Word64, w &&& 0xFFF000000000000F#64 = 0x8#64 → 2 ≤ (w.extractLsb' 20 32).toNat →
    decode w = .command (.regRead (w.extractLsb' 4 16) (w.extractLsb' 20 32))) ∧
  (∀ (s : State) (p : Port) (h : HID), 2 ≤ h.toNat →
    ∃ t, exec (.regRead p h) s = .next t ∧
      (∀ q, Table.read t.rd q = if q = p then h else Table.read s.rd q) ∧
      t = { s with rd := t.rd, responses := s.responses ++ [responseWord .ok 0#32] }) ∧
  (∀ (s t u : State) (h : HID) (k : Nat), 2 ≤ h.toNat → (∀ q, q ≠ 0x92#16 → Table.read s.rd q ≠ hidA20) →
    exec (.regRead 0x92#16 h) s = .next t → runSteps k t = .next u → ∀ q, Table.read u.rd q ≠ hidA20) ∧
  (decode 0x0000000000203F48#64 = .command (.regRead 0x3F4#16 2#32) ∧
    ∀ s : State, Table.read s.rd 0x3F4#16 = 2#32 → ∃ t n, exec (.read8 0x3F4#16) s = .next t ∧
      t.responses = s.responses ++ [responseWord .ok ((Config.devRead n s.devPort 2#32 0x3F4#16).setWidth 32)])

/-- R81, whole: the words of REG_WRITE, what it does, what it leaves alone, that after it replaces the A20 write capability no
command can change A20, and its example. -/
def Obligations.RegWriteBindsTheWriteEntry : Prop :=
  (∀ w : Word64, w &&& 0xFFF000000000000F#64 = 0x9#64 → 2 ≤ (w.extractLsb' 20 32).toNat →
    decode w = .command (.regWrite (w.extractLsb' 4 16) (w.extractLsb' 20 32))) ∧
  (∀ (s : State) (p : Port) (h : HID), 2 ≤ h.toNat →
    ∃ t, exec (.regWrite p h) s = .next t ∧
      (∀ q, Table.read t.wr q = if q = p then h else Table.read s.wr q) ∧
      t = { s with wr := t.wr, responses := s.responses ++ [responseWord .ok 0#32] }) ∧
  (∀ (s t u : State) (h : HID) (k : Nat), 2 ≤ h.toNat → (∀ q, q ≠ 0x92#16 → Table.read s.wr q ≠ hidA20) →
    exec (.regWrite 0x92#16 h) s = .next t → runSteps k t = .next u → u.a20 = s.a20) ∧
  (decode 0x0000000000403F49#64 = .command (.regWrite 0x3F4#16 4#32) ∧
    ∀ s : State, Table.read s.wr 0x3F4#16 = 4#32 → ∃ t, exec (.write8 0x3F4#16 0x34#8) s = .next t ∧
      t.devPort = s.devPort ++ [.write 4#32 0x3F4#16 0x34#8])

/-- R24: writing an entry of one array leaves the other array and every other entry unchanged. -/
def Obligations.HandlerEntriesAreIndependent : Prop :=
  ∀ (s t : State) (p : Port) (h : HID),
    (exec (.regRead p h) s = .next t → t.wr = s.wr ∧ ∀ q, q ≠ p → Table.read t.rd q = Table.read s.rd q) ∧
    (exec (.regWrite p h) s = .next t → t.rd = s.rd ∧ ∀ q, q ≠ p → Table.read t.wr q = Table.read s.wr q)

/-- Only the registration commands write the arrays (10_state.md section 1, R23). -/
def Obligations.OnlyRegistrationWritesTheArrays : Prop :=
  ∀ (i : Instr) (s t : State), exec i s = .next t →
    (i.isRegRead = false → t.rd = s.rd) ∧ (i.isRegWrite = false → t.wr = s.wr)

/-- R82: every entry is that of the most recent registration at its port, or what it was before; a registration never fails,
is reported on no output and checks nothing else, whatever is bound elsewhere; an entry never returns to the stub. -/
def Obligations.LastRegistrationWins : Prop :=
  (∀ (cs : List Command) (s : State) (p : Port), s.commands = cs →
    ∃ t, runSteps cs.length s = .next t ∧
      Table.read t.rd p = lastReadBinding p cs (Table.read s.rd p) ∧
      Table.read t.wr p = lastWriteBinding p cs (Table.read s.wr p)) ∧
  (∀ (s : State) (p : Port) (h : HID), 2 ≤ h.toNat →
    (∃ t, exec (.regRead p h) s = .next t ∧ t.responses = s.responses ++ [responseWord .ok 0#32] ∧
      t.diagOut = s.diagOut ∧ t.devPort = s.devPort ∧ Table.read t.rd p = h) ∧
    (∃ t, exec (.regWrite p h) s = .next t ∧ t.responses = s.responses ++ [responseWord .ok 0#32] ∧
      t.diagOut = s.diagOut ∧ t.devPort = s.devPort ∧ Table.read t.wr p = h)) ∧
  (∀ (k : Nat) (s t : State) (p : Port), runSteps k s = .next t →
    (Table.read s.rd p ≠ hidStub → Table.read t.rd p ≠ hidStub) ∧
    (Table.read s.wr p ≠ hidStub → Table.read t.wr p ≠ hidStub))

/-- R84: a registration of a built-in identifier is refused, so the stub and the A20 handler are bound only by construction:
no run binds either to an entry that did not hold it. -/
def Obligations.BuiltinHandlersCannotBeRegistered : Prop :=
  (∀ (w : Word64) (h : HID), w.extractLsb' 52 12 = 0#12 → w.extractLsb' 0 4 = 0x8#4 ∨ w.extractLsb' 0 4 = 0x9#4 →
    h = w.extractLsb' 20 32 → h = hidStub ∨ h = hidA20 → decode w = .refused .builtinHandlerId) ∧
  (∀ (k : Nat) (s t : State) (p : Port) (h : HID), runSteps k s = .next t → h = hidStub ∨ h = hidA20 →
    (Table.read t.rd p = h → Table.read s.rd p = h) ∧ (Table.read t.wr p = h → Table.read s.wr p = h))

/-- A registration of a built-in identifier, which no accepted word spells, is refused by its meaning too. The model's choice,
log 11 (40_registration.md, R84). -/
def Obligations.IllFormedRegistrationIsRefused : Prop :=
  ∀ (s : State) (p : Port) (h : HID), h.toNat < 2 →
    exec (.regRead p h) s = .next (refusedAs s .builtinHandlerId) ∧
    exec (.regWrite p h) s = .next (refusedAs s .builtinHandlerId)

/-- R34: no run writes the A20 handler into an entry, so once no write entry holds it, the latch and its output keep their
value for the rest of the session. -/
def Obligations.A20CapabilityOnceLostStaysLost : Prop :=
  ∀ (k : Nat) (s t : State), runSteps k s = .next t →
    (∀ p, Table.read t.rd p = hidA20 → Table.read s.rd p = hidA20) ∧
    (∀ p, Table.read t.wr p = hidA20 → Table.read s.wr p = hidA20) ∧
    ((∀ p, Table.read s.wr p ≠ hidA20) → t.a20 = s.a20 ∧ t.a20Out = s.a20)

/-- Registering a span, in either array, binds every port of it and no other, changes nothing else, and answers one OK a port
(30_encoding.md section 4, 40_registration.md). -/
def Obligations.SpanRegistersEveryPortOfIt : Prop :=
  ∀ (s : State) (p : Port) (n : Nat) (h : HID), 2 ≤ h.toNat → 1 ≤ n → p.toNat + n - 1 ≤ 0xFFFF →
    (∃ is t, (Pseudo.regReadSpan p n h).expand = some is ∧ execAll is s = .next t ∧
      (∀ q : Port, Table.read t.rd q =
        if p.toNat ≤ q.toNat ∧ q.toNat < p.toNat + n then h else Table.read s.rd q) ∧
      t = { s with rd := t.rd, responses := s.responses ++ List.replicate n (responseWord .ok 0#32) }) ∧
    (∃ is t, (Pseudo.regWriteSpan p n h).expand = some is ∧ execAll is s = .next t ∧
      (∀ q : Port, Table.read t.wr q =
        if p.toNat ≤ q.toNat ∧ q.toNat < p.toNat + n then h else Table.read s.wr q) ∧
      t = { s with wr := t.wr, responses := s.responses ++ List.replicate n (responseWord .ok 0#32) })

/-! ### Access -/

/-- R92, whole: the words of READ8, its one cycle, its byte, everything it changes (`Serviced`), and its example. -/
def Obligations.Read8RunsOneReadCycle : Prop :=
  (∀ w : Word64, w &&& 0xFFFFFFFFFFF0000F#64 = 0x1#64 → decode w = .command (.read8 (w.extractLsb' 4 16))) ∧
  (∀ (p : Port) (s : State), ∃ b t, exec (.read8 p) s = .next t ∧
    AnsweredAll s.a20 s.devPort [.rd p (Table.read s.rd p) p b] ∧
    Serviced s t [.rd p (Table.read s.rd p) p b] (b.setWidth 32)) ∧
  (∀ a : Byte, ∃ t, step ((State.construct false a).withFetchWord 64 0x0000000000000601) = .next t ∧
    t.responses = [responseWord .ok 0x000000FF#32])

/-- R93, whole: the words of WRITE8, its one cycle, everything it changes, and its example. -/
def Obligations.Write8RunsOneWriteCycle : Prop :=
  (∀ w : Word64, w &&& 0xFFFFFFFFF000000F#64 = 0x5#64 →
    decode w = .command (.write8 (w.extractLsb' 4 16) (w.extractLsb' 20 8))) ∧
  (∀ (p : Port) (b : Byte) (s : State), ∃ t, exec (.write8 p b) s = .next t ∧
    Serviced s t [.wr p (Table.read s.wr p) p b] 0#32) ∧
  (∀ (d : Bool) (a : Byte), ∃ t u, step ((State.construct d a).withFetchWord 64 0x0000000000200925) = .next t ∧
    t.a20 = 0x02#8 ∧ exec (.read8 0x92#16) t = .next u ∧
    u.responses = t.responses ++ [responseWord .ok 0x02#32])

/-- R94, whole: the words of READ16; below 0xFFFF two cycles in order, both with argument p, composed little-endian; at 0xFFFF
a rejection with no handler run and no defined data. -/
def Obligations.Read16RunsTwoReadCycles : Prop :=
  (∀ w : Word64, w &&& 0xFFFFFFFFFFF0000F#64 = 0x2#64 → decode w = .command (.read16 (w.extractLsb' 4 16))) ∧
  (∀ (p : Port) (s : State), p.toNat ≤ 0xFFFE → ∃ b0 b1 t cs, exec (.read16 p) s = .next t ∧
    cs = [.rd p (Table.read s.rd p) p b0, .rd (p + 1) (Table.read s.rd (p + 1)) p b1] ∧
    AnsweredAll s.a20 s.devPort cs ∧ Serviced s t cs ((b1 ++ b0 : BitVec 16).setWidth 32)) ∧
  (∀ (p : Port) (s : State), 0xFFFE < p.toNat → ∃ d t, exec (.read16 p) s = .next t ∧
    Rejected s t (.reject .read .w16 p none) d) ∧
  decode 0x0000000000003F42#64 = .command (.read16 0x3F4#16) ∧
  ((0x12#8 ++ 0x34#8 : BitVec 16).setWidth 32 = 0x00001234#32)

/-- R95, whole: the words of READ32; up to 0xFFFC four cycles in order, all with argument p, composed little-endian; above it
a rejection. -/
def Obligations.Read32RunsFourReadCycles : Prop :=
  (∀ w : Word64, w &&& 0xFFFFFFFFFFF0000F#64 = 0x3#64 → decode w = .command (.read32 (w.extractLsb' 4 16))) ∧
  (∀ (p : Port) (s : State), p.toNat ≤ 0xFFFC → ∃ b0 b1 b2 b3 t cs, exec (.read32 p) s = .next t ∧
    cs = [.rd p (Table.read s.rd p) p b0, .rd (p + 1) (Table.read s.rd (p + 1)) p b1,
      .rd (p + 2) (Table.read s.rd (p + 2)) p b2, .rd (p + 3) (Table.read s.rd (p + 3)) p b3] ∧
    AnsweredAll s.a20 s.devPort cs ∧ Serviced s t cs (b3 ++ b2 ++ b1 ++ b0)) ∧
  (∀ (p : Port) (s : State), 0xFFFC < p.toNat → ∃ d t, exec (.read32 p) s = .next t ∧
    Rejected s t (.reject .read .w32 p none) d) ∧
  decode 0x00000000000FFFC3#64 = .command (.read32 0xFFFC#16) ∧
  (0x44#8 ++ 0x33#8 ++ 0x22#8 ++ 0x11#8 : BitVec 32) = 0x44332211#32

/-- R96, whole: the words of WRITE16; below 0xFFFF two cycles in order, low byte first, both with argument p; at 0xFFFF a
rejection that reports the value; and its example. -/
def Obligations.Write16RunsTwoWriteCycles : Prop :=
  (∀ w : Word64, w &&& 0xFFFFFFF00000000F#64 = 0x6#64 →
    decode w = .command (.write16 (w.extractLsb' 4 16) (w.extractLsb' 20 16))) ∧
  (∀ (p : Port) (v : BitVec 16) (s : State), p.toNat ≤ 0xFFFE → ∃ t, exec (.write16 p v) s = .next t ∧
    Serviced s t [.wr p (Table.read s.wr p) p (v.extractLsb' 0 8),
      .wr (p + 1) (Table.read s.wr (p + 1)) p (v.extractLsb' 8 8)] 0#32) ∧
  (∀ (p : Port) (v : BitVec 16) (s : State), 0xFFFE < p.toNat → ∃ t, exec (.write16 p v) s = .next t ∧
    Rejected s t (.reject .write .w16 p (some (v.setWidth 32))) 0#32) ∧
  (∀ (p : Port) (s : State), p.toNat ≤ 0xFFFE → ∃ t, exec (.write16 p 0x1234#16) s = .next t ∧
    t.hist = s.hist ++ [.wr p (Table.read s.wr p) p 0x34#8, .wr (p + 1) (Table.read s.wr (p + 1)) p 0x12#8])

/-- R97, whole: the words of WRITE32; up to 0xFFFC four cycles in order, low byte first, all with argument p, for every value;
above it a rejection that reports the value; and its example. -/
def Obligations.Write32RunsFourWriteCycles : Prop :=
  (∀ w : Word64, w &&& 0xFFF000000000000F#64 = 0x7#64 →
    decode w = .command (.write32 (w.extractLsb' 4 16) (w.extractLsb' 20 32))) ∧
  (∀ (p : Port) (v : BitVec 32) (s : State), p.toNat ≤ 0xFFFC → ∃ t, exec (.write32 p v) s = .next t ∧
    Serviced s t [.wr p (Table.read s.wr p) p (v.extractLsb' 0 8),
      .wr (p + 1) (Table.read s.wr (p + 1)) p (v.extractLsb' 8 8),
      .wr (p + 2) (Table.read s.wr (p + 2)) p (v.extractLsb' 16 8),
      .wr (p + 3) (Table.read s.wr (p + 3)) p (v.extractLsb' 24 8)] 0#32) ∧
  (∀ (p : Port) (v : BitVec 32) (s : State), 0xFFFC < p.toNat → ∃ t, exec (.write32 p v) s = .next t ∧
    Rejected s t (.reject .write .w32 p (some v)) 0#32) ∧
  decode 0x000AABBCCDD10007#64 = .command (.write32 0x1000#16 0xAABBCCDD#32) ∧
  (∀ s : State, ∃ t, exec (.write32 0x1000#16 0xAABBCCDD#32) s = .next t ∧
    t.hist = s.hist ++ [.wr 0x1000#16 (Table.read s.wr 0x1000#16) 0x1000#16 0xDD#8,
      .wr 0x1001#16 (Table.read s.wr 0x1001#16) 0x1000#16 0xCC#8,
      .wr 0x1002#16 (Table.read s.wr 0x1002#16) 0x1000#16 0xBB#8,
      .wr 0x1003#16 (Table.read s.wr 0x1003#16) 0x1000#16 0xAA#8])

/-- R98: the straddle predicate, its thresholds, and that a byte access never straddles. -/
def Obligations.StraddleThresholds : Prop :=
  ∀ p : Port,
    (∀ n, straddles p n = true ↔ p.toNat + n - 1 > 0xFFFF) ∧
    (straddles p 2 = true ↔ p.toNat > 0xFFFE) ∧
    (straddles p 4 = true ↔ p.toNat > 0xFFFC) ∧
    straddles p 1 = false

/-- R99: a straddling access of any of the four multi-byte forms, in either diagnostic mode, runs no cycle, changes no state,
emits its `DiagReject` and answers REJECTED, with RDATA 0 for a write. -/
def Obligations.StraddlingAccessIsRejectedWhole : Prop :=
  ∀ (s : State) (p : Port),
    (straddles p 2 = true →
      (∃ t d, exec (.read16 p) s = .next t ∧ Rejected s t (.reject .read .w16 p none) d) ∧
      (∀ v, ∃ t, exec (.write16 p v) s = .next t ∧ Rejected s t (.reject .write .w16 p (some (v.setWidth 32))) 0#32)) ∧
    (straddles p 4 = true →
      (∃ t d, exec (.read32 p) s = .next t ∧ Rejected s t (.reject .read .w32 p none) d) ∧
      (∀ v, ∃ t, exec (.write32 p v) s = .next t ∧ Rejected s t (.reject .write .w32 p (some v)) 0#32))

/-- R100: byte k of an access at p dispatches through slot p + k with argument p, and an access runs all its cycles or none. -/
def Obligations.EveryCycleCarriesTheStartingPort : Prop :=
  ∀ (i : Instr) (s t : State), exec i s = .next t →
    ∃ cs, t.hist = s.hist ++ cs ∧ (cs = [] ∨ cs.length = i.cycleCount) ∧
      ∀ k (hk : k < cs.length), cs[k].arg = i.port ∧ cs[k].slot.toNat = i.port.toNat + k

/-- The reads change no state of the block but the history and what it puts out (20_memory.md section 4). -/
def Obligations.ReadsChangeNoBlockState : Prop :=
  ∀ (i : Instr) (s t : State), i.isRead = true → exec i s = .next t →
    t.rd = s.rd ∧ t.wr = s.wr ∧ t.a20 = s.a20 ∧ t.diagEn = s.diagEn ∧ t.refusals = s.refusals ∧ t.commands = s.commands

/-- The writes change no state of the block but the latch, and that only through a slot bound to the A20 handler
(20_memory.md section 4, 42_builtin_handlers.md section 2). -/
def Obligations.WritesChangeOnlyTheLatch : Prop :=
  ∀ (i : Instr) (s t : State), i.isWrite = true → exec i s = .next t →
    t.rd = s.rd ∧ t.wr = s.wr ∧ t.diagEn = s.diagEn ∧ t.refusals = s.refusals ∧ t.commands = s.commands ∧
    ((∀ q : Port, i.port.toNat ≤ q.toNat → q.toNat < i.port.toNat + i.cycleCount → Table.read s.wr q ≠ hidA20) →
      t.a20 = s.a20)

/-- The examples of R101 in any state with the construction bindings at 0x91 and 0x92 (41_port_access.md section 4). -/
def Obligations.AccessAcrossStubAndA20 : Prop :=
  (∀ s : State, Table.read s.rd 0x91#16 = hidStub → Table.read s.rd 0x92#16 = hidA20 →
    ∃ t, exec (.read16 0x91#16) s = .next t ∧
      t.hist = s.hist ++ [.rd 0x91#16 hidStub 0x91#16 0xFF#8, .rd 0x92#16 hidA20 0x91#16 s.a20] ∧
      t.responses = s.responses ++ [responseWord .ok ((s.a20 ++ 0xFF#8 : BitVec 16).setWidth 32)]) ∧
  (∀ (s : State) (v : BitVec 16), Table.read s.wr 0x91#16 = hidStub → Table.read s.wr 0x92#16 = hidA20 →
    ∃ t, exec (.write16 0x91#16 v) s = .next t ∧ t.a20 = v.extractLsb' 8 8)

/-- A 16-bit read of two ports with built-in handlers sees the bytes two 8-bit reads see (20_memory.md section 2). -/
def Obligations.WordReadSeesTheSameBytesAsByteReads : Prop :=
  ∀ (s : State) (p : Port), p.toNat ≤ 0xFFFE →
    (Table.read s.rd p).toNat < 2 → (Table.read s.rd (p + 1)).toNat < 2 →
    ∃ (b0 b1 : Byte) (t u v : State), exec (.read8 p) s = .next t ∧ exec (.read8 (p + 1)) t = .next u ∧
      exec (.read16 p) s = .next v ∧
      u.responses = s.responses ++ [responseWord .ok (b0.setWidth 32), responseWord .ok (b1.setWidth 32)] ∧
      v.responses = s.responses ++ [responseWord .ok ((b1 ++ b0 : BitVec 16).setWidth 32)]

/-! ### Built-in handlers -/

/-- R110 and R111: what a byte cycle through the stub does, in either diagnostic mode, and nothing else; and their examples. -/
def Obligations.StubHandlersReadFFAndDiscard : Prop :=
  (∀ (s : State) (slot arg : Port) (b : Byte),
    (Table.read s.rd slot = hidStub → readCycle slot arg s = (0xFF#8,
      { s with hist := s.hist ++ [.rd slot hidStub arg 0xFF#8]
               diagOut := s.diagOut ++
                 if s.diagEn then [.stub .read arg slot 0xFF#8 (Config.portName arg)] else [] })) ∧
    (Table.read s.wr slot = hidStub → writeCycle slot arg b s =
      { s with hist := s.hist ++ [.wr slot hidStub arg b]
               diagOut := s.diagOut ++
                 if s.diagEn then [.stub .write arg slot b (Config.portName arg)] else [] })) ∧
  (∀ (d : Bool) (a : Byte), ∃ t, exec (.read8 0x60#16) (State.construct d a) = .next t ∧
    t.responses = [responseWord .ok 0xFF#32] ∧
    t.diagOut = if d then [.stub .read 0x60#16 0x60#16 0xFF#8 (Config.portName 0x60#16)] else []) ∧
  (∀ s : State, Table.read s.wr 0x80#16 = hidStub → ∃ t, exec (.write8 0x80#16 0x55#8) s = .next t ∧
    Serviced s t [.wr 0x80#16 hidStub 0x80#16 0x55#8] 0#32)

/-- R113 and R114: what a byte cycle through the A20 handler does, and nothing else; that construction binds it at 0x92 only;
what the two word writes that reach 0x92 store; and their examples. -/
def Obligations.A20HandlerReadsAndStoresTheLatch : Prop :=
  (∀ (s : State) (slot arg : Port) (b : Byte),
    (Table.read s.rd slot = hidA20 → readCycle slot arg s = (s.a20,
      { s with hist := s.hist ++ [.rd slot hidA20 arg s.a20] })) ∧
    (Table.read s.wr slot = hidA20 → writeCycle slot arg b s =
      { s with a20 := b, hist := s.hist ++ [.wr slot hidA20 arg b] } ∧ (writeCycle slot arg b s).a20Out = b)) ∧
  (∀ (d : Bool) (a : Byte) (p : Port),
    (Table.read (State.construct d a).rd p = hidA20 ↔ p = 0x92#16) ∧
    (Table.read (State.construct d a).wr p = hidA20 ↔ p = 0x92#16)) ∧
  (∀ (s : State) (v : BitVec 16), Table.read s.wr 0x92#16 = hidA20 →
    (Table.read s.wr 0x91#16 = hidStub → ∃ t, exec (.write16 0x91#16 v) s = .next t ∧ t.a20 = v.extractLsb' 8 8) ∧
    (Table.read s.wr 0x93#16 = hidStub → ∃ t, exec (.write16 0x92#16 v) s = .next t ∧ t.a20 = v.extractLsb' 0 8)) ∧
  (∀ (d : Bool) (a b : Byte), ∃ t u, exec (.write8 0x92#16 b) (State.construct d a) = .next t ∧ t.a20 = b ∧
    exec (.read8 0x92#16) t = .next u ∧ u.responses = t.responses ++ [responseWord .ok (b.setWidth 32)])

/-- R116: a read through the stub returns 0xFF after a byte write, and after any mix of writes of any width. -/
def Obligations.StubHasNoMemory : Prop :=
  ∀ (s : State) (p : Port), Table.read s.rd p = hidStub → Table.read s.wr p = hidStub →
    (∀ v : Byte, ∃ t u, exec (.write8 p v) s = .next t ∧ exec (.read8 p) t = .next u ∧
      u.responses = t.responses ++ [responseWord .ok 0xFF#32]) ∧
    (∀ ws : List Instr, (∀ i ∈ ws, i.isWrite = true) → ∃ t u, execAll ws s = .next t ∧ exec (.read8 p) t = .next u ∧
      u.responses = t.responses ++ [responseWord .ok 0xFF#32])

/-- A read through the A20 handler returns the latch as it was before any commands that run no A20 write cycle and leave the
port bound, and a read through the stub 0xFF (20_memory.md section 4, R46). -/
def Obligations.BuiltinReadsRepeat : Prop :=
  ∀ (is : List Instr) (s t : State) (p : Port), execAll is s = .next t →
    ∃ cs u, t.hist = s.hist ++ cs ∧ exec (.read8 p) t = .next u ∧
      (Table.read t.rd p = hidStub → u.responses = t.responses ++ [responseWord .ok 0xFF#32]) ∧
      (Table.read t.rd p = hidA20 → (∀ c ∈ cs, c.writesLatch = false) →
        u.responses = t.responses ++ [responseWord .ok (s.a20.setWidth 32)])

/-- A byte written through the A20 handler is what the next read through it returns (42_builtin_handlers.md section 2). -/
def Obligations.A20WriteIsReadBack : Prop :=
  ∀ (s : State) (p q : Port) (b : Byte), Table.read s.wr p = hidA20 → Table.read s.rd q = hidA20 →
    ∃ t u, exec (.write8 p b) s = .next t ∧ t.a20 = b ∧ exec (.read8 q) t = .next u ∧
      u.responses = t.responses ++ [responseWord .ok (b.setWidth 32)]

/-- In any run the latch is what the last A20 write cycle stored, and the device port carried exactly the external cycles, in
order and without their slots (10_state.md section 2, 30_encoding.md section 5). -/
def Obligations.LatchAndDevicePortFollowTheHistory : Prop :=
  ∀ (k : Nat) (s t : State), runSteps k s = .next t →
    ∃ cs, t.hist = s.hist ++ cs ∧ t.a20 = latchAfter s.a20 cs ∧ t.devPort = s.devPort ++ cs.filterMap Cycle.transfer

/-- An external handler is told the triggering port and, for a write, the byte, and never the slot (30_encoding.md section 5):
its answer is a draw given what the device port carried, and two cycles through the same handler with the same argument are one
transfer to it, whichever slots and states they ran in. That such cycles make equal draws when as many draws came before is the
model's choice, log 4. -/
def Obligations.DeviceIsNotToldTheSlot : Prop :=
  (∀ (s : State) (slot arg : Port) (h : HID), 2 ≤ h.toNat → Table.read s.rd slot = h →
    ∃ n b, b = Config.devRead n s.devPort h arg ∧ (readCycle slot arg s).1 = b ∧
      (readCycle slot arg s).2.devPort = s.devPort ++ [.read h arg b]) ∧
  (∀ (s : State) (slot arg : Port) (h : HID) (b : Byte), 2 ≤ h.toNat → Table.read s.wr slot = h →
    (writeCycle slot arg b s).devPort = s.devPort ++ [.write h arg b]) ∧
  (∀ (s t : State) (x y arg : Port), 2 ≤ (Table.read s.rd x).toNat → Table.read t.rd y = Table.read s.rd x →
    t.devPort = s.devPort → t.draws = s.draws →
    (readCycle y arg t).1 = (readCycle x arg s).1 ∧ (readCycle y arg t).2.devPort = (readCycle x arg s).2.devPort)

/-! ### Diagnostics -/

/-- R26: the mode is the configuration input and no run changes it; in any run the stub records put out are exactly those of
the stub cycles when it is 1, and none when it is 0; and a command in one mode and in the other, each with its own draws, has the
same effect on the state, runs the same cycles with the same bytes but for a device's own answers, and returns the same status,
and the same response where no device answered and nothing was rejected. Equal draws are not claimed (R31, R99). -/
def Obligations.DiagnosticModeChangesNoEffect : Prop :=
  (∀ (d : Bool) (a : Byte), (State.construct d a).diagEn = d) ∧
  (∀ (k : Nat) (s t : State), runSteps k s = .next t → t.diagEn = s.diagEn ∧
    ∃ cs ds, t.hist = s.hist ++ cs ∧ t.diagOut = s.diagOut ++ ds ∧
      ds.filter DiagRec.isStub = stubRecords s.diagEn cs) ∧
  (∀ (i : Instr) (s : State) (en : Bool), ∃ t u, exec i s = .next t ∧ exec i { s with diagEn := en } = .next u ∧
    u.rd = t.rd ∧ u.wr = t.wr ∧ u.a20 = t.a20 ∧ u.refusals = t.refusals ∧ u.commands = t.commands ∧
    ∃ cs ds rs qs, t.hist = s.hist ++ cs ∧ u.hist = s.hist ++ ds ∧
      ds.map Cycle.withoutDeviceByte = cs.map Cycle.withoutDeviceByte ∧
      t.responses = s.responses ++ rs ∧ u.responses = s.responses ++ qs ∧ qs.map statusField = rs.map statusField ∧
      ((∀ c ∈ cs, c.isDeviceRead = false) → (∀ r ∈ rs, statusField r = 0b00#2) → qs = rs))

/-- The mode is the configuration input and stays it; in any run the stub records put out are exactly those of the stub cycles
when it is 1, and none when it is 0; and two blocks that differ in the mode and in what they have reported run alike in
everything else (10_state.md section 2). The two runs compared make equal draws, and that is the model's choice: equal device
answers by log 4, and equal `RDATA` of rejected reads by log 5, a value no claim about the hardware may rely on (R99). -/
def Obligations.DiagnosticModeOnlyReports : Prop :=
  (∀ (d : Bool) (a : Byte), (State.construct d a).diagEn = d) ∧
  (∀ (k : Nat) (s t : State), runSteps k s = .next t → t.diagEn = s.diagEn ∧
    ∃ cs ds, t.hist = s.hist ++ cs ∧ t.diagOut = s.diagOut ++ ds ∧
      ds.filter DiagRec.isStub = stubRecords s.diagEn cs) ∧
  (∀ (k : Nat) (s t : State) (en : Bool) (out : List DiagRec), runSteps k s = .next t →
    ∃ out', runSteps k { s with diagEn := en, diagOut := out } = .next { t with diagEn := en, diagOut := out' })

/-! ### The invariant -/

/-- Every step keeps the invariant: canonical arrays (log 12), the A20 handler bound at 0x92 only, the device port and the
diagnostic output in agreement with the history, stub reads of 0xFF, slots within an access (10_state.md, 41_port_access.md,
42_builtin_handlers.md). -/
def Obligations.StepKeepsTheInvariant : Prop :=
  ∀ s t : State, Inv s → step s = .next t → Inv t

/-- Construction establishes the invariant, and the model's reset state has it (70_reset_and_hazards.md section 1). -/
def Obligations.ConstructionEstablishesTheInvariant : Prop :=
  (∀ (d : Bool) (a : Byte), Inv (State.construct d a)) ∧ Inv State.reset
end

