-- ==== Sys2Proof/Laws/State.lean ====
section
/-! SUPPORT. One lemma per field per update of the state, so that no later proof unfolds a record update. -/

namespace Sys2Proof.Machine

@[simp] theorem State.bindRead_rd (s : State) (p : Port) (h : HID) : (s.bindRead p h).rd = Table.write s.rd p h := rfl
@[simp] theorem State.bindRead_wr (s : State) (p : Port) (h : HID) : (s.bindRead p h).wr = s.wr := rfl
@[simp] theorem State.bindRead_a20 (s : State) (p : Port) (h : HID) : (s.bindRead p h).a20 = s.a20 := rfl
@[simp] theorem State.bindRead_diagEn (s : State) (p : Port) (h : HID) : (s.bindRead p h).diagEn = s.diagEn := rfl
@[simp] theorem State.bindRead_hist (s : State) (p : Port) (h : HID) : (s.bindRead p h).hist = s.hist := rfl
@[simp] theorem State.bindRead_refusals (s : State) (p : Port) (h : HID) : (s.bindRead p h).refusals = s.refusals := rfl
@[simp] theorem State.bindRead_commands (s : State) (p : Port) (h : HID) : (s.bindRead p h).commands = s.commands := rfl
@[simp] theorem State.bindRead_responses (s : State) (p : Port) (h : HID) : (s.bindRead p h).responses = s.responses := rfl
@[simp] theorem State.bindRead_devPort (s : State) (p : Port) (h : HID) : (s.bindRead p h).devPort = s.devPort := rfl
@[simp] theorem State.bindRead_diagOut (s : State) (p : Port) (h : HID) : (s.bindRead p h).diagOut = s.diagOut := rfl
@[simp] theorem State.bindRead_draws (s : State) (p : Port) (h : HID) : (s.bindRead p h).draws = s.draws := rfl

@[simp] theorem State.bindWrite_rd (s : State) (p : Port) (h : HID) : (s.bindWrite p h).rd = s.rd := rfl
@[simp] theorem State.bindWrite_wr (s : State) (p : Port) (h : HID) : (s.bindWrite p h).wr = Table.write s.wr p h := rfl
@[simp] theorem State.bindWrite_a20 (s : State) (p : Port) (h : HID) : (s.bindWrite p h).a20 = s.a20 := rfl
@[simp] theorem State.bindWrite_diagEn (s : State) (p : Port) (h : HID) : (s.bindWrite p h).diagEn = s.diagEn := rfl
@[simp] theorem State.bindWrite_hist (s : State) (p : Port) (h : HID) : (s.bindWrite p h).hist = s.hist := rfl
@[simp] theorem State.bindWrite_refusals (s : State) (p : Port) (h : HID) : (s.bindWrite p h).refusals = s.refusals := rfl
@[simp] theorem State.bindWrite_commands (s : State) (p : Port) (h : HID) : (s.bindWrite p h).commands = s.commands := rfl
@[simp] theorem State.bindWrite_responses (s : State) (p : Port) (h : HID) : (s.bindWrite p h).responses = s.responses := rfl
@[simp] theorem State.bindWrite_devPort (s : State) (p : Port) (h : HID) : (s.bindWrite p h).devPort = s.devPort := rfl
@[simp] theorem State.bindWrite_diagOut (s : State) (p : Port) (h : HID) : (s.bindWrite p h).diagOut = s.diagOut := rfl
@[simp] theorem State.bindWrite_draws (s : State) (p : Port) (h : HID) : (s.bindWrite p h).draws = s.draws := rfl

@[simp] theorem State.latch_rd (s : State) (b : Byte) : (s.latch b).rd = s.rd := rfl
@[simp] theorem State.latch_wr (s : State) (b : Byte) : (s.latch b).wr = s.wr := rfl
@[simp] theorem State.latch_a20 (s : State) (b : Byte) : (s.latch b).a20 = b := rfl
@[simp] theorem State.latch_diagEn (s : State) (b : Byte) : (s.latch b).diagEn = s.diagEn := rfl
@[simp] theorem State.latch_hist (s : State) (b : Byte) : (s.latch b).hist = s.hist := rfl
@[simp] theorem State.latch_refusals (s : State) (b : Byte) : (s.latch b).refusals = s.refusals := rfl
@[simp] theorem State.latch_commands (s : State) (b : Byte) : (s.latch b).commands = s.commands := rfl
@[simp] theorem State.latch_responses (s : State) (b : Byte) : (s.latch b).responses = s.responses := rfl
@[simp] theorem State.latch_devPort (s : State) (b : Byte) : (s.latch b).devPort = s.devPort := rfl
@[simp] theorem State.latch_diagOut (s : State) (b : Byte) : (s.latch b).diagOut = s.diagOut := rfl
@[simp] theorem State.latch_draws (s : State) (b : Byte) : (s.latch b).draws = s.draws := rfl

@[simp] theorem State.record_rd (s : State) (c : Cycle) : (s.record c).rd = s.rd := rfl
@[simp] theorem State.record_wr (s : State) (c : Cycle) : (s.record c).wr = s.wr := rfl
@[simp] theorem State.record_a20 (s : State) (c : Cycle) : (s.record c).a20 = s.a20 := rfl
@[simp] theorem State.record_diagEn (s : State) (c : Cycle) : (s.record c).diagEn = s.diagEn := rfl
@[simp] theorem State.record_hist (s : State) (c : Cycle) : (s.record c).hist = s.hist ++ [c] := rfl
@[simp] theorem State.record_refusals (s : State) (c : Cycle) : (s.record c).refusals = s.refusals := rfl
@[simp] theorem State.record_commands (s : State) (c : Cycle) : (s.record c).commands = s.commands := rfl
@[simp] theorem State.record_responses (s : State) (c : Cycle) : (s.record c).responses = s.responses := rfl
@[simp] theorem State.record_devPort (s : State) (c : Cycle) : (s.record c).devPort = s.devPort := rfl
@[simp] theorem State.record_diagOut (s : State) (c : Cycle) : (s.record c).diagOut = s.diagOut := rfl
@[simp] theorem State.record_draws (s : State) (c : Cycle) : (s.record c).draws = s.draws := rfl

@[simp] theorem State.transfer_rd (s : State) (x : DevXfer) : (s.transfer x).rd = s.rd := rfl
@[simp] theorem State.transfer_wr (s : State) (x : DevXfer) : (s.transfer x).wr = s.wr := rfl
@[simp] theorem State.transfer_a20 (s : State) (x : DevXfer) : (s.transfer x).a20 = s.a20 := rfl
@[simp] theorem State.transfer_diagEn (s : State) (x : DevXfer) : (s.transfer x).diagEn = s.diagEn := rfl
@[simp] theorem State.transfer_hist (s : State) (x : DevXfer) : (s.transfer x).hist = s.hist := rfl
@[simp] theorem State.transfer_refusals (s : State) (x : DevXfer) : (s.transfer x).refusals = s.refusals := rfl
@[simp] theorem State.transfer_commands (s : State) (x : DevXfer) : (s.transfer x).commands = s.commands := rfl
@[simp] theorem State.transfer_responses (s : State) (x : DevXfer) : (s.transfer x).responses = s.responses := rfl
@[simp] theorem State.transfer_devPort (s : State) (x : DevXfer) : (s.transfer x).devPort = s.devPort ++ [x] := rfl
@[simp] theorem State.transfer_diagOut (s : State) (x : DevXfer) : (s.transfer x).diagOut = s.diagOut := rfl
@[simp] theorem State.transfer_draws (s : State) (x : DevXfer) : (s.transfer x).draws = s.draws := rfl

@[simp] theorem State.emit_rd (s : State) (r : DiagRec) : (s.emit r).rd = s.rd := rfl
@[simp] theorem State.emit_wr (s : State) (r : DiagRec) : (s.emit r).wr = s.wr := rfl
@[simp] theorem State.emit_a20 (s : State) (r : DiagRec) : (s.emit r).a20 = s.a20 := rfl
@[simp] theorem State.emit_diagEn (s : State) (r : DiagRec) : (s.emit r).diagEn = s.diagEn := rfl
@[simp] theorem State.emit_hist (s : State) (r : DiagRec) : (s.emit r).hist = s.hist := rfl
@[simp] theorem State.emit_refusals (s : State) (r : DiagRec) : (s.emit r).refusals = s.refusals := rfl
@[simp] theorem State.emit_commands (s : State) (r : DiagRec) : (s.emit r).commands = s.commands := rfl
@[simp] theorem State.emit_responses (s : State) (r : DiagRec) : (s.emit r).responses = s.responses := rfl
@[simp] theorem State.emit_devPort (s : State) (r : DiagRec) : (s.emit r).devPort = s.devPort := rfl
@[simp] theorem State.emit_diagOut (s : State) (r : DiagRec) : (s.emit r).diagOut = s.diagOut ++ [r] := rfl
@[simp] theorem State.emit_draws (s : State) (r : DiagRec) : (s.emit r).draws = s.draws := rfl

@[simp] theorem State.emitIf_rd (s : State) (en : Bool) (r : DiagRec) : (s.emitIf en r).rd = s.rd := rfl
@[simp] theorem State.emitIf_wr (s : State) (en : Bool) (r : DiagRec) : (s.emitIf en r).wr = s.wr := rfl
@[simp] theorem State.emitIf_a20 (s : State) (en : Bool) (r : DiagRec) : (s.emitIf en r).a20 = s.a20 := rfl
@[simp] theorem State.emitIf_diagEn (s : State) (en : Bool) (r : DiagRec) : (s.emitIf en r).diagEn = s.diagEn := rfl
@[simp] theorem State.emitIf_hist (s : State) (en : Bool) (r : DiagRec) : (s.emitIf en r).hist = s.hist := rfl
@[simp] theorem State.emitIf_refusals (s : State) (en : Bool) (r : DiagRec) : (s.emitIf en r).refusals = s.refusals := rfl
@[simp] theorem State.emitIf_commands (s : State) (en : Bool) (r : DiagRec) : (s.emitIf en r).commands = s.commands := rfl
@[simp] theorem State.emitIf_responses (s : State) (en : Bool) (r : DiagRec) : (s.emitIf en r).responses = s.responses := rfl
@[simp] theorem State.emitIf_devPort (s : State) (en : Bool) (r : DiagRec) : (s.emitIf en r).devPort = s.devPort := rfl
@[simp] theorem State.emitIf_diagOut (s : State) (en : Bool) (r : DiagRec) : (s.emitIf en r).diagOut = s.diagOut ++ if en then [r] else [] := rfl
@[simp] theorem State.emitIf_draws (s : State) (en : Bool) (r : DiagRec) : (s.emitIf en r).draws = s.draws := rfl

@[simp] theorem State.respond_rd (s : State) (st : Status) (d : Data) : (s.respond st d).rd = s.rd := rfl
@[simp] theorem State.respond_wr (s : State) (st : Status) (d : Data) : (s.respond st d).wr = s.wr := rfl
@[simp] theorem State.respond_a20 (s : State) (st : Status) (d : Data) : (s.respond st d).a20 = s.a20 := rfl
@[simp] theorem State.respond_diagEn (s : State) (st : Status) (d : Data) : (s.respond st d).diagEn = s.diagEn := rfl
@[simp] theorem State.respond_hist (s : State) (st : Status) (d : Data) : (s.respond st d).hist = s.hist := rfl
@[simp] theorem State.respond_refusals (s : State) (st : Status) (d : Data) : (s.respond st d).refusals = s.refusals := rfl
@[simp] theorem State.respond_commands (s : State) (st : Status) (d : Data) : (s.respond st d).commands = s.commands := rfl
@[simp] theorem State.respond_responses (s : State) (st : Status) (d : Data) : (s.respond st d).responses = s.responses ++ [responseWord st d] := rfl
@[simp] theorem State.respond_devPort (s : State) (st : Status) (d : Data) : (s.respond st d).devPort = s.devPort := rfl
@[simp] theorem State.respond_diagOut (s : State) (st : Status) (d : Data) : (s.respond st d).diagOut = s.diagOut := rfl
@[simp] theorem State.respond_draws (s : State) (st : Status) (d : Data) : (s.respond st d).draws = s.draws := rfl

@[simp] theorem State.refuse_rd (s : State) (r : RefuseReason) : (s.refuse r).rd = s.rd := rfl
@[simp] theorem State.refuse_wr (s : State) (r : RefuseReason) : (s.refuse r).wr = s.wr := rfl
@[simp] theorem State.refuse_a20 (s : State) (r : RefuseReason) : (s.refuse r).a20 = s.a20 := rfl
@[simp] theorem State.refuse_diagEn (s : State) (r : RefuseReason) : (s.refuse r).diagEn = s.diagEn := rfl
@[simp] theorem State.refuse_hist (s : State) (r : RefuseReason) : (s.refuse r).hist = s.hist := rfl
@[simp] theorem State.refuse_refusals (s : State) (r : RefuseReason) : (s.refuse r).refusals = s.refusals ++ [r] := rfl
@[simp] theorem State.refuse_commands (s : State) (r : RefuseReason) : (s.refuse r).commands = s.commands := rfl
@[simp] theorem State.refuse_responses (s : State) (r : RefuseReason) : (s.refuse r).responses = s.responses := rfl
@[simp] theorem State.refuse_devPort (s : State) (r : RefuseReason) : (s.refuse r).devPort = s.devPort := rfl
@[simp] theorem State.refuse_diagOut (s : State) (r : RefuseReason) : (s.refuse r).diagOut = s.diagOut := rfl
@[simp] theorem State.refuse_draws (s : State) (r : RefuseReason) : (s.refuse r).draws = s.draws := rfl

@[simp] theorem State.present_rd (s : State) (w : Word64) : (s.present w).rd = s.rd := rfl
@[simp] theorem State.present_wr (s : State) (w : Word64) : (s.present w).wr = s.wr := rfl
@[simp] theorem State.present_a20 (s : State) (w : Word64) : (s.present w).a20 = s.a20 := rfl
@[simp] theorem State.present_diagEn (s : State) (w : Word64) : (s.present w).diagEn = s.diagEn := rfl
@[simp] theorem State.present_hist (s : State) (w : Word64) : (s.present w).hist = s.hist := rfl
@[simp] theorem State.present_refusals (s : State) (w : Word64) : (s.present w).refusals = s.refusals := rfl
@[simp] theorem State.present_commands (s : State) (w : Word64) : (s.present w).commands = ⟨w, false⟩ :: s.commands := rfl
@[simp] theorem State.present_responses (s : State) (w : Word64) : (s.present w).responses = s.responses := rfl
@[simp] theorem State.present_devPort (s : State) (w : Word64) : (s.present w).devPort = s.devPort := rfl
@[simp] theorem State.present_diagOut (s : State) (w : Word64) : (s.present w).diagOut = s.diagOut := rfl
@[simp] theorem State.present_draws (s : State) (w : Word64) : (s.present w).draws = s.draws := rfl

@[simp] theorem State.idle_rd (s : State) : (s.idle).rd = s.rd := rfl
@[simp] theorem State.idle_wr (s : State) : (s.idle).wr = s.wr := rfl
@[simp] theorem State.idle_a20 (s : State) : (s.idle).a20 = s.a20 := rfl
@[simp] theorem State.idle_diagEn (s : State) : (s.idle).diagEn = s.diagEn := rfl
@[simp] theorem State.idle_hist (s : State) : (s.idle).hist = s.hist := rfl
@[simp] theorem State.idle_refusals (s : State) : (s.idle).refusals = s.refusals := rfl
@[simp] theorem State.idle_commands (s : State) : (s.idle).commands = s.commands := rfl
@[simp] theorem State.idle_responses (s : State) : (s.idle).responses = s.responses := rfl
@[simp] theorem State.idle_devPort (s : State) : (s.idle).devPort = s.devPort := rfl
@[simp] theorem State.idle_diagOut (s : State) : (s.idle).diagOut = s.diagOut := rfl
@[simp] theorem State.idle_draws (s : State) : (s.idle).draws = s.draws := rfl

@[simp] theorem State.drawByte_value (s : State) (h : HID) (arg : Port) : (s.drawByte h arg).1 = Config.devRead s.draws s.devPort h arg := rfl
@[simp] theorem State.drawByte_rd (s : State) (h : HID) (arg : Port) : (s.drawByte h arg).2.rd = s.rd := rfl
@[simp] theorem State.drawByte_wr (s : State) (h : HID) (arg : Port) : (s.drawByte h arg).2.wr = s.wr := rfl
@[simp] theorem State.drawByte_a20 (s : State) (h : HID) (arg : Port) : (s.drawByte h arg).2.a20 = s.a20 := rfl
@[simp] theorem State.drawByte_diagEn (s : State) (h : HID) (arg : Port) : (s.drawByte h arg).2.diagEn = s.diagEn := rfl
@[simp] theorem State.drawByte_hist (s : State) (h : HID) (arg : Port) : (s.drawByte h arg).2.hist = s.hist := rfl
@[simp] theorem State.drawByte_refusals (s : State) (h : HID) (arg : Port) : (s.drawByte h arg).2.refusals = s.refusals := rfl
@[simp] theorem State.drawByte_commands (s : State) (h : HID) (arg : Port) : (s.drawByte h arg).2.commands = s.commands := rfl
@[simp] theorem State.drawByte_responses (s : State) (h : HID) (arg : Port) : (s.drawByte h arg).2.responses = s.responses := rfl
@[simp] theorem State.drawByte_devPort (s : State) (h : HID) (arg : Port) : (s.drawByte h arg).2.devPort = s.devPort := rfl
@[simp] theorem State.drawByte_diagOut (s : State) (h : HID) (arg : Port) : (s.drawByte h arg).2.diagOut = s.diagOut := rfl
@[simp] theorem State.drawByte_draws (s : State) (h : HID) (arg : Port) : (s.drawByte h arg).2.draws = s.draws + 1 := rfl

@[simp] theorem State.drawRejected_value (s : State) (width : Width) (p : Port) : (s.drawRejected width p).1 = Config.rejectedData s.draws s.hist width p := rfl
@[simp] theorem State.drawRejected_rd (s : State) (width : Width) (p : Port) : (s.drawRejected width p).2.rd = s.rd := rfl
@[simp] theorem State.drawRejected_wr (s : State) (width : Width) (p : Port) : (s.drawRejected width p).2.wr = s.wr := rfl
@[simp] theorem State.drawRejected_a20 (s : State) (width : Width) (p : Port) : (s.drawRejected width p).2.a20 = s.a20 := rfl
@[simp] theorem State.drawRejected_diagEn (s : State) (width : Width) (p : Port) : (s.drawRejected width p).2.diagEn = s.diagEn := rfl
@[simp] theorem State.drawRejected_hist (s : State) (width : Width) (p : Port) : (s.drawRejected width p).2.hist = s.hist := rfl
@[simp] theorem State.drawRejected_refusals (s : State) (width : Width) (p : Port) : (s.drawRejected width p).2.refusals = s.refusals := rfl
@[simp] theorem State.drawRejected_commands (s : State) (width : Width) (p : Port) : (s.drawRejected width p).2.commands = s.commands := rfl
@[simp] theorem State.drawRejected_responses (s : State) (width : Width) (p : Port) : (s.drawRejected width p).2.responses = s.responses := rfl
@[simp] theorem State.drawRejected_devPort (s : State) (width : Width) (p : Port) : (s.drawRejected width p).2.devPort = s.devPort := rfl
@[simp] theorem State.drawRejected_diagOut (s : State) (width : Width) (p : Port) : (s.drawRejected width p).2.diagOut = s.diagOut := rfl
@[simp] theorem State.drawRejected_draws (s : State) (width : Width) (p : Port) : (s.drawRejected width p).2.draws = s.draws + 1 := rfl

@[simp] theorem State.construct_rd (d : Bool) (a : Byte) : (State.construct d a).rd = [(0x92, hidA20)] := rfl
@[simp] theorem State.construct_wr (d : Bool) (a : Byte) : (State.construct d a).wr = [(0x92, hidA20)] := rfl
@[simp] theorem State.construct_a20 (d : Bool) (a : Byte) : (State.construct d a).a20 = a := rfl
@[simp] theorem State.construct_diagEn (d : Bool) (a : Byte) : (State.construct d a).diagEn = d := rfl
@[simp] theorem State.construct_hist (d : Bool) (a : Byte) : (State.construct d a).hist = [] := rfl
@[simp] theorem State.construct_refusals (d : Bool) (a : Byte) : (State.construct d a).refusals = [] := rfl
@[simp] theorem State.construct_commands (d : Bool) (a : Byte) : (State.construct d a).commands = [] := rfl
@[simp] theorem State.construct_responses (d : Bool) (a : Byte) : (State.construct d a).responses = [] := rfl
@[simp] theorem State.construct_devPort (d : Bool) (a : Byte) : (State.construct d a).devPort = [] := rfl
@[simp] theorem State.construct_diagOut (d : Bool) (a : Byte) : (State.construct d a).diagOut = [] := rfl
@[simp] theorem State.construct_draws (d : Bool) (a : Byte) : (State.construct d a).draws = 0 := rfl

@[simp] theorem State.a20Out_eq (s : State) : s.a20Out = s.a20 := rfl

theorem State.refusalMark_iff (s : State) : s.refusalMark = true ↔ s.refusals ≠ [] := by
  simp [State.refusalMark]

@[simp] theorem State.take_nil (s : State) (h : s.commands = []) : s.take = none := by simp [State.take, h]

theorem State.take_cons (s : State) (c : Command) (rest : List Command) (h : s.commands = c :: rest) :
    s.take = some (c, { s with commands := rest }) := by simp [State.take, h]

end Sys2Proof.Machine
end

