-- ==== Sys2Proof/Laws/Table.lean ====
section
/-! SUPPORT. The laws of a handler array: read after write, independence of entries (10_state.md R24), and that a write keeps the
canonical form. -/

namespace Sys2Proof.Machine

theorem Table.lookup_insert (t : Table) (p q : Nat) (h : HID) :
    Table.lookup (Table.insert t p h) q = if p = q then some h else Table.lookup t q := by
  induction t with
  | nil => simp [Table.insert, Table.lookup]
  | cons e t ih =>
    obtain ⟨r, g⟩ := e
    simp only [Table.insert]
    split_ifs with h1 h2 <;> simp_all [Table.lookup] <;> grind

/-- An entry below every listed port is not listed. -/
theorem Table.lookup_none_of_lt (t : Table) (p : Nat) (h : ∀ e ∈ t, p < e.1) : Table.lookup t p = none := by
  induction t with
  | nil => rfl
  | cons e t ih =>
    obtain ⟨r, g⟩ := e
    have : r ≠ p := by have := h (r, g) (by simp); simp at this; omega
    simp only [Table.lookup, this, if_false]
    exact ih fun e he => h e (by simp [he])

theorem Table.lookup_erase (t : Table) (ht : t.Pairwise fun a b => a.1 < b.1) (p q : Nat) :
    Table.lookup (Table.erase t p) q = if p = q then none else Table.lookup t q := by
  induction t with
  | nil => simp [Table.erase, Table.lookup]
  | cons e t ih =>
    obtain ⟨r, g⟩ := e
    rw [List.pairwise_cons] at ht
    simp only [Table.erase]
    by_cases hrp : r = p
    · subst hrp
      by_cases hq : r = q
      · subst hq
        simpa using Table.lookup_none_of_lt t r fun e he => ht.1 e he
      · simp [Table.lookup, hq]
    · simp only [hrp, if_false, Table.lookup, ih ht.2]
      by_cases hq : r = q
      · subst hq; simp [show ¬ p = r from fun h => hrp h.symm]
      · simp [hq]

/-- Read after write of an external or A20 binding, at the written port and at every other. -/
theorem Table.read_write (t : Table) (p q : Port) (h : HID) (hh : h ≠ hidStub) :
    Table.read (Table.write t p h) q = if q = p then h else Table.read t q := by
  simp only [Table.read, Table.write, hh, if_false, Table.lookup_insert]
  by_cases hq : q = p
  · subst hq; simp
  · have : ¬ p.toNat = q.toNat := fun e => hq (BitVec.eq_of_toNat_eq e.symm)
    simp [hq, this]

/-- Read after write of any binding, in the canonical form. -/
theorem Table.read_write_wf (t : Table) (ht : Table.wf t) (p q : Port) (h : HID) :
    Table.read (Table.write t p h) q = if q = p then h else Table.read t q := by
  by_cases hh : h = hidStub
  · subst hh
    simp only [Table.read, Table.write, if_true, Table.lookup_erase t ht.1]
    by_cases hq : q = p
    · subst hq; simp
    · have : ¬ p.toNat = q.toNat := fun e => hq (BitVec.eq_of_toNat_eq e.symm)
      simp [hq, this]
  · exact Table.read_write t p q h hh

theorem Table.mem_insert (t : Table) (p : Nat) (h : HID) (e : Nat × HID) (he : e ∈ Table.insert t p h) :
    e = (p, h) ∨ e ∈ t := by
  induction t with
  | nil => simpa [Table.insert] using he
  | cons x t ih =>
    obtain ⟨r, g⟩ := x
    simp only [Table.insert] at he
    split_ifs at he with h1 h2
    · simpa using he
    · simp at he; rcases he with he | he <;> simp [he]
    · simp at he
      rcases he with he | he
      · simp [he]
      · rcases ih he with h3 | h3 <;> simp [h3]

theorem Table.mem_erase (t : Table) (p : Nat) (e : Nat × HID) (he : e ∈ Table.erase t p) : e ∈ t := by
  induction t with
  | nil => simp [Table.erase] at he
  | cons x t ih =>
    obtain ⟨r, g⟩ := x
    simp only [Table.erase] at he
    split_ifs at he with h1
    · simp [he]
    · simp at he
      rcases he with he | he
      · simp [he]
      · simp [ih he]

theorem Table.insert_pairwise (t : Table) (p : Nat) (h : HID) (ht : t.Pairwise fun a b => a.1 < b.1) :
    (Table.insert t p h).Pairwise fun a b => a.1 < b.1 := by
  induction t with
  | nil => simp [Table.insert]
  | cons x t ih =>
    obtain ⟨r, g⟩ := x
    rw [List.pairwise_cons] at ht
    simp only [Table.insert]
    split_ifs with h1 h2
    · refine List.pairwise_cons.2 ⟨fun e he => ?_, List.pairwise_cons.2 ht⟩
      rcases List.mem_cons.1 he with rfl | he
      · exact h1
      · exact lt_trans h1 (ht.1 e he)
    · subst h2; exact List.pairwise_cons.2 ht
    · refine List.pairwise_cons.2 ⟨fun e he => ?_, ih ht.2⟩
      rcases Table.mem_insert t p h e he with rfl | he
      · exact lt_of_le_of_ne (Nat.le_of_not_lt h1) (Ne.symm h2)
      · exact ht.1 e he

theorem Table.erase_pairwise (t : Table) (p : Nat) (ht : t.Pairwise fun a b => a.1 < b.1) :
    (Table.erase t p).Pairwise fun a b => a.1 < b.1 := by
  induction t with
  | nil => simp [Table.erase]
  | cons x t ih =>
    obtain ⟨r, g⟩ := x
    rw [List.pairwise_cons] at ht
    simp only [Table.erase]
    split_ifs
    · exact ht.2
    · exact List.pairwise_cons.2 ⟨fun e he => ht.1 e (Table.mem_erase t p e he), ih ht.2⟩

/-- Every write keeps the canonical form. -/
theorem Table.write_wf (t : Table) (p : Port) (h : HID) (ht : Table.wf t) : Table.wf (Table.write t p h) := by
  by_cases hh : h = hidStub
  · simp only [Table.write, hh, if_true]
    exact ⟨Table.erase_pairwise t _ ht.1, fun e he => ht.2 e (Table.mem_erase t _ e he)⟩
  · simp only [Table.write, hh, if_false]
    refine ⟨Table.insert_pairwise t _ h ht.1, fun e he => ?_⟩
    rcases Table.mem_insert t _ h e he with rfl | he
    · exact ⟨p.isLt, hh⟩
    · exact ht.2 e he

/-- The construction binding of either array (R29). -/
theorem Table.read_construct (p : Port) : Table.read [(0x92, hidA20)] p = if p = a20Port then hidA20 else hidStub := by
  by_cases hp : p = a20Port
  · subst hp; rfl
  · have : ¬ (146 : Nat) = p.toNat := fun e => hp (BitVec.eq_of_toNat_eq e.symm)
    simp [Table.read, Table.lookup, hp, this]

/-- A handler that may be registered is not the stub. -/
theorem externalHid_ne_stub (h : HID) (hh : externalHid h = true) : h ≠ hidStub := by
  rintro rfl; simp [externalHid] at hh

/-- A handler that may be registered is not the A20 handler. -/
theorem externalHid_ne_a20 (h : HID) (hh : externalHid h = true) : h ≠ hidA20 := by
  rintro rfl; simp [externalHid] at hh

/-- The three kinds of handler identifier (R21). -/
theorem hid_cases (h : HID) : h = hidStub ∨ h = hidA20 ∨ 2 ≤ h.toNat := by
  by_cases h0 : h = hidStub
  · exact .inl h0
  by_cases h1 : h = hidA20
  · exact .inr (.inl h1)
  refine .inr (.inr ?_)
  have : h.toNat ≠ 0 := fun e => h0 (BitVec.eq_of_toNat_eq e)
  have : h.toNat ≠ 1 := fun e => h1 (BitVec.eq_of_toNat_eq e)
  omega

end Sys2Proof.Machine
end

