-- ==== Sys2Proof/Laws/Cycle.lean ====
section
/-! SUPPORT. What byte cycles do, said once: a list of them is a `Ran` step with one record a byte, in order, each answered by its own
handler. -/

namespace Sys2Proof.Machine

theorem stubRecords_append (en : Bool) (cs ds : List Cycle) :
    stubRecords en (cs ++ ds) = stubRecords en cs ++ stubRecords en ds := by
  cases en <;> simp [stubRecords]

theorem latchAfter_append (a : Byte) (cs ds : List Cycle) : latchAfter a (cs ++ ds) = latchAfter (latchAfter a cs) ds := by
  simp [latchAfter]

/-- No cycle, no change. -/
theorem Ran.refl (s : State) : Ran s s [] := by
  constructor <;> simp [stubRecords, latchAfter]

theorem Ran.trans {s t u : State} {cs ds : List Cycle} (h : Ran s t cs) (g : Ran t u ds) : Ran s u (cs ++ ds) where
  hist := by rw [g.hist, h.hist, List.append_assoc]
  devPort := by rw [g.devPort, h.devPort, List.filterMap_append, List.append_assoc]
  diagOut := by rw [g.diagOut, h.diagOut, h.diagEn, stubRecords_append, List.append_assoc]
  a20 := by rw [g.a20, h.a20, latchAfter_append]
  rd := g.rd.trans h.rd
  wr := g.wr.trans h.wr
  diagEn := g.diagEn.trans h.diagEn
  refusals := g.refusals.trans h.refusals
  commands := g.commands.trans h.commands

/-- What follows a run of cycles by a response alone is still that run. -/
theorem Ran.respond {s t : State} {cs : List Cycle} (h : Ran s t cs) (st : Status) (d : Data) : Ran s (t.respond st d) cs :=
  ⟨h.hist, h.devPort, h.diagOut, h.a20, h.rd, h.wr, h.diagEn, h.refusals, h.commands⟩

/-- One read cycle: its record, its byte answered by the entry's handler (R90). -/
theorem readCycle_ran (slot arg : Port) (s : State) :
    Ran s (readCycle slot arg s).2 [.rd slot (Table.read s.rd slot) arg (readCycle slot arg s).1] := by
  rcases hid_cases (Table.read s.rd slot) with h | h | h
  · constructor <;>
      simp [readCycle, answerRead, stubRead, reportStub, h, Cycle.transfer, Cycle.stubRecord, stubRecords, latchAfter,
        Cycle.latched]
  · constructor <;>
      simp [readCycle, answerRead, a20Read, h, Cycle.transfer, Cycle.stubRecord, stubRecords, latchAfter, Cycle.latched]
  · have h0 : ¬ Table.read s.rd slot = hidStub := by intro e; rw [e] at h; simp at h
    have h1 : ¬ Table.read s.rd slot = hidA20 := by intro e; rw [e] at h; simp at h
    constructor <;>
      simp [readCycle, answerRead, deviceRead, h, h0, h1, Cycle.transfer, Cycle.stubRecord, stubRecords, latchAfter,
        Cycle.latched]

theorem readCycle_answered (slot arg : Port) (s : State) :
    (Cycle.rd slot (Table.read s.rd slot) arg (readCycle slot arg s).1).answered s.a20 s.devPort := by
  rcases hid_cases (Table.read s.rd slot) with h | h | h
  · simp [readCycle, answerRead, stubRead, h, Cycle.answered]
  · simp [readCycle, answerRead, a20Read, h, Cycle.answered]
  · have h0 : ¬ Table.read s.rd slot = hidStub := by intro e; rw [e] at h; simp at h
    have h1 : ¬ Table.read s.rd slot = hidA20 := by intro e; rw [e] at h; simp at h
    simp only [readCycle, answerRead, deviceRead, h0, h1, if_false, Cycle.answered, false_implies, true_and]
    exact fun _ => ⟨s.draws, rfl⟩

theorem readCycle_responses (slot arg : Port) (s : State) : (readCycle slot arg s).2.responses = s.responses := by
  simp only [readCycle, answerRead]
  split_ifs <;> simp [stubRead, a20Read, deviceRead, reportStub]

/-- One write cycle: its record, its byte delivered to the entry's handler (R91). -/
theorem writeCycle_ran (slot arg : Port) (b : Byte) (s : State) :
    Ran s (writeCycle slot arg b s) [.wr slot (Table.read s.wr slot) arg b] := by
  rcases hid_cases (Table.read s.wr slot) with h | h | h
  · constructor <;>
      simp [writeCycle, deliverWrite, stubWrite, reportStub, h, Cycle.transfer, Cycle.stubRecord, stubRecords, latchAfter,
        Cycle.latched]
  · constructor <;>
      simp [writeCycle, deliverWrite, a20Write, h, Cycle.transfer, Cycle.stubRecord, stubRecords, latchAfter, Cycle.latched]
  · have h0 : ¬ Table.read s.wr slot = hidStub := by intro e; rw [e] at h; simp at h
    have h1 : ¬ Table.read s.wr slot = hidA20 := by intro e; rw [e] at h; simp at h
    constructor <;>
      simp [writeCycle, deliverWrite, deviceWrite, h, h0, h1, Cycle.transfer, Cycle.stubRecord, stubRecords, latchAfter,
        Cycle.latched]

theorem writeCycle_responses (slot arg : Port) (b : Byte) (s : State) :
    (writeCycle slot arg b s).responses = s.responses := by
  simp only [writeCycle, deliverWrite]
  split_ifs <;> simp [stubWrite, a20Write, deviceWrite, reportStub]

/-- The records of read cycles through the slots, with the bytes they returned. -/
def readRecords (rd : Table) (arg : Port) (ss : List Port) (bs : List Byte) : List Cycle :=
  List.zipWith (fun slot b => .rd slot (Table.read rd slot) arg b) ss bs

/-- The records of write cycles. -/
def writeRecords (wr : Table) (arg : Port) (ws : List (Port × Byte)) : List Cycle :=
  ws.map fun w => .wr w.1 (Table.read wr w.1) arg w.2

theorem latchAfter_readRecords (a : Byte) (rd : Table) (arg : Port) (ss : List Port) (bs : List Byte) :
    latchAfter a (readRecords rd arg ss bs) = a := by
  induction ss generalizing bs with
  | nil => rfl
  | cons x ss ih => cases bs with
    | nil => rfl
    | cons b bs => exact ih bs

@[simp] theorem answeredAll_nil (a : Byte) (port : List DevXfer) : AnsweredAll a port [] := .nil port

@[simp] theorem answeredAll_cons (a : Byte) (port : List DevXfer) (cs : List Cycle) (c : Cycle) :
    AnsweredAll a port (c :: cs) ↔ c.answered a port ∧ AnsweredAll a (port ++ [c].filterMap Cycle.transfer) cs :=
  ⟨fun h => by cases h with | cons h t => exact ⟨h, t⟩, fun h => .cons h.1 h.2⟩

/-- A read cycle through the stub among answered cycles returned 0xFF (R110). -/
theorem answeredAll_stub {a : Byte} {port : List DevXfer} {cs : List Cycle} (h : AnsweredAll a port cs) {slot arg : Port} {b : Byte}
    (hm : Cycle.rd slot hidStub arg b ∈ cs) : b = stubByte := by
  induction h with
  | nil port => simp at hm
  | cons head _ ih =>
    rcases List.mem_cons.1 hm with rfl | hm
    · exact head.1 rfl
    · exact ih hm

theorem readCycles_length (arg : Port) (ss : List Port) (s : State) : (readCycles arg ss s).1.length = ss.length := by
  induction ss generalizing s with
  | nil => rfl
  | cons x ss ih => simp [readCycles, ih]

/-- A list of read cycles runs exactly its records, in order (R48). -/
theorem readCycles_ran (arg : Port) (ss : List Port) (s : State) :
    Ran s (readCycles arg ss s).2 (readRecords s.rd arg ss (readCycles arg ss s).1) := by
  induction ss generalizing s with
  | nil => exact Ran.refl s
  | cons x ss ih =>
    have h := readCycle_ran x arg s
    have g := ih (readCycle x arg s).2
    rw [h.rd] at g
    exact h.trans g

theorem readCycles_responses (arg : Port) (ss : List Port) (s : State) : (readCycles arg ss s).2.responses = s.responses := by
  induction ss generalizing s with
  | nil => rfl
  | cons x ss ih => exact (ih _).trans (readCycle_responses x arg s)

theorem readCycles_answered (arg : Port) (ss : List Port) (s : State) :
    AnsweredAll s.a20 s.devPort (readRecords s.rd arg ss (readCycles arg ss s).1) := by
  induction ss generalizing s with
  | nil => exact .nil _
  | cons x ss ih =>
    have h := readCycle_ran x arg s
    have g := ih (readCycle x arg s).2
    rw [h.rd, h.devPort, h.a20] at g
    exact .cons (readCycle_answered x arg s) g

/-- A list of write cycles runs exactly its records, in order (R48). -/
theorem writeCycles_ran (arg : Port) (ws : List (Port × Byte)) (s : State) :
    Ran s (writeCycles arg ws s) (writeRecords s.wr arg ws) := by
  induction ws generalizing s with
  | nil => exact Ran.refl s
  | cons w ws ih =>
    obtain ⟨x, b⟩ := w
    have h := writeCycle_ran x arg b s
    have g := ih (writeCycle x arg b s)
    rw [h.wr] at g
    exact h.trans g

theorem writeCycles_responses (arg : Port) (ws : List (Port × Byte)) (s : State) :
    (writeCycles arg ws s).responses = s.responses := by
  induction ws generalizing s with
  | nil => rfl
  | cons w ws ih => exact (ih _).trans (writeCycle_responses w.1 arg w.2 s)

theorem answeredAll_append (a : Byte) (port : List DevXfer) (cs ds : List Cycle) :
    AnsweredAll a port (cs ++ ds) ↔ AnsweredAll a port cs ∧ AnsweredAll a (port ++ cs.filterMap Cycle.transfer) ds := by
  induction cs generalizing port with
  | nil => simp
  | cons c cs ih => rw [List.cons_append, answeredAll_cons, ih, answeredAll_cons, and_assoc, List.append_assoc,
      ← List.filterMap_append, List.singleton_append]

end Sys2Proof.Machine
end

