-- ==== Sys2Proof/Laws/Access.lean ====
section
/-! SUPPORT. What each access and each command does, said once: later proofs cite these and unfold no meaning. -/

namespace Sys2Proof.Machine

theorem straddles_iff (p : Port) (n : Nat) : straddles p n = true ↔ 0xFFFF < p.toNat + n - 1 := by
  simp [straddles]

/-- A single byte never straddles (R98). -/
@[simp] theorem straddles_one (p : Port) : straddles p 1 = false := by
  have := p.isLt
  simp [straddles]; omega

@[simp] theorem slotAt_zero (p : Port) : slotAt p 0 = p := by simp [slotAt]

theorem slotAt_eq_add (p : Port) (k : Nat) : slotAt p k = p + BitVec.ofNat 16 k := by
  simp [slotAt, BitVec.ofNat_add]

theorem slotAt_toNat (p : Port) (k : Nat) (h : p.toNat + k ≤ 0xFFFF) : (slotAt p k).toNat = p.toNat + k := by
  simp [slotAt]; omega

theorem slots_one (p : Port) : slots p 1 = [p] := by simp [slots, List.range_succ]

theorem slots_two (p : Port) : slots p 2 = [p, p + 1] := by simp [slots, List.range_succ, slotAt_eq_add]

theorem slots_four (p : Port) : slots p 4 = [p, p + 1, p + 2, p + 3] := by
  simp [slots, List.range_succ, slotAt_eq_add]

/-- Appending a byte below a value. -/
theorem toNat_append_byte {n : Nat} (v : BitVec n) (b : Byte) : (v ++ b).toNat = b.toNat + 256 * v.toNat := by
  rw [BitVec.toNat_append, ← Nat.shiftLeft_add_eq_or_of_lt b.isLt, Nat.shiftLeft_eq]; omega

theorem assemble_one (b : Byte) : assemble [b] = b.setWidth 32 := by
  apply BitVec.eq_of_toNat_eq
  simp [assemble, littleEndian]

theorem assemble_two (b0 b1 : Byte) : assemble [b0, b1] = (b1 ++ b0 : BitVec 16).setWidth 32 := by
  apply BitVec.eq_of_toNat_eq
  have h := toNat_append_byte b1 b0
  rw [BitVec.toNat_setWidth]
  erw [h]
  simp [assemble, littleEndian]

theorem assemble_four (b0 b1 b2 b3 : Byte) : assemble [b0, b1, b2, b3] = (b3 ++ b2 ++ b1 ++ b0 : BitVec 32) := by
  apply BitVec.eq_of_toNat_eq
  have h0 := toNat_append_byte (b3 ++ b2 ++ b1) b0
  have h1 := toNat_append_byte (b3 ++ b2) b1
  have h2 := toNat_append_byte b3 b2
  have := b0.isLt; have := b1.isLt; have := b2.isLt; have := b3.isLt
  erw [h0, h1, h2]
  simp [assemble, littleEndian]
  omega

theorem byteOf_byte (v : BitVec 8) : byteOf (v.setWidth 32) 0 = v := by
  simp only [byteOf]
  ext i hi
  simp [hi]
  omega

theorem byteOf_word (v : BitVec 16) (k : Nat) (hk : k < 2) : byteOf (v.setWidth 32) k = v.extractLsb' (8 * k) 8 := by
  simp only [byteOf]
  ext i hi
  simp
  intro
  omega

/-- The records of a serviced read. -/
def readTrace (width : Width) (p : Port) (s : State) : List Cycle :=
  readRecords s.rd p (slots p width.bytes) (readCycles p (slots p width.bytes) s).1

/-- The records of a serviced write. -/
def writeTrace (width : Width) (p : Port) (v : Data) (s : State) : List Cycle :=
  writeRecords s.wr p (writeBytes p width.bytes v)

theorem serviceRead_serviced (width : Width) (p : Port) (s : State) :
    Serviced s (serviceRead width p s) (readTrace width p s) (assemble (readCycles p (slots p width.bytes) s).1) where
  ran := (readCycles_ran p _ s).respond _ _
  responses := by simp [serviceRead, readCycles_responses]

theorem serviceWrite_serviced (width : Width) (p : Port) (v : Data) (s : State) :
    Serviced s (serviceWrite width p v s) (writeTrace width p v s) 0#32 where
  ran := (writeCycles_ran p _ s).respond _ _
  responses := by simp [serviceWrite, writeCycles_responses]

theorem rejectRead_rejected (width : Width) (p : Port) (s : State) :
    Rejected s (rejectRead width p s) (.reject .read width p none) (Config.rejectedData s.draws s.hist width p) := by
  constructor <;> simp [rejectRead]

theorem rejectWrite_rejected (width : Width) (p : Port) (v : Data) (s : State) :
    Rejected s (rejectWrite width p v s) (.reject .write width p (some v)) 0#32 := by
  constructor <;> simp [rejectWrite]

/-- A read access is serviced or, exactly where it straddles, rejected (R94, R95, R99, R123). -/
theorem readAccess_eq (width : Width) (p : Port) (s : State) :
    readAccess width p s = .next (if straddles p width.bytes then rejectRead width p s else serviceRead width p s) := by
  simp only [readAccess]; split_ifs <;> rfl

/-- A write access is serviced or, exactly where it straddles, rejected (R96, R97, R99, R123). -/
theorem writeAccess_eq (width : Width) (p : Port) (v : Data) (s : State) :
    writeAccess width p v s =
      .next (if straddles p width.bytes then rejectWrite width p v s else serviceWrite width p v s) := by
  simp only [writeAccess]; split_ifs <;> rfl

/-- A cycle went through the handler its slot was bound to (R90, R91, R101). -/
def Cycle.through (rd wr : Table) : Cycle → Prop
  | .rd slot h _ _ => h = Table.read rd slot
  | .wr slot h _ _ => h = Table.read wr slot

/-- The four things a command can do (R121), with everything it changes. -/
inductive Did (i : Instr) (s t : State) : Prop where
  | serviced (cs : List Cycle) (d : Data) (h : Serviced s t cs d)
      (slot : ∀ k (hk : k < cs.length), cs[k].arg = i.port ∧ cs[k].slot.toNat = i.port.toNat + k)
      (count : cs.length = i.cycleCount) (through : ∀ c ∈ cs, Cycle.through s.rd s.wr c)
      (answered : AnsweredAll s.a20 s.devPort cs) (latch : i.isRead = true → latchAfter s.a20 cs = s.a20)
      (kind : i.isRead = true ∨ i.isWrite = true)
  | rejected (r : DiagRec) (d : Data) (h : Rejected s t r d) (report : r.isStub = false)
      (kind : i.isRead = true ∨ i.isWrite = true)
  | bound (p : Port) (h : HID) (external : externalHid h = true)
      (hi : i = .regRead p h ∧ t = (s.bindRead p h).respond .ok 0#32 ∨
        i = .regWrite p h ∧ t = (s.bindWrite p h).respond .ok 0#32)
  | refused (h : t = s.refuse .builtinHandlerId) (ill : i.wf = false)

theorem readRecords_getElem (rd : Table) (arg : Port) (ss : List Port) (bs : List Byte) (k : Nat)
    (hk : k < (readRecords rd arg ss bs).length) :
    (readRecords rd arg ss bs)[k] =
      .rd (ss[k]'(by simp [readRecords] at hk; omega)) (Table.read rd (ss[k]'(by simp [readRecords] at hk; omega))) arg
        (bs[k]'(by simp [readRecords] at hk; omega)) := by
  simp [readRecords]

theorem writeRecords_getElem (wr : Table) (arg : Port) (ws : List (Port × Byte)) (k : Nat)
    (hk : k < (writeRecords wr arg ws).length) :
    (writeRecords wr arg ws)[k] =
      .wr (ws[k]'(by simpa [writeRecords] using hk)).1 (Table.read wr (ws[k]'(by simpa [writeRecords] using hk)).1) arg
        (ws[k]'(by simpa [writeRecords] using hk)).2 := by
  simp [writeRecords]

@[simp] theorem readTrace_length (width : Width) (p : Port) (s : State) : (readTrace width p s).length = width.bytes := by
  simp [readTrace, readRecords, readCycles_length, slots]

@[simp] theorem writeTrace_length (width : Width) (p : Port) (v : Data) (s : State) :
    (writeTrace width p v s).length = width.bytes := by
  simp [writeTrace, writeRecords, writeBytes]

theorem readTrace_slot (width : Width) (p : Port) (s : State) (hs : ¬ straddles p width.bytes = true) (k : Nat)
    (hk : k < (readTrace width p s).length) :
    (readTrace width p s)[k].arg = p ∧ (readTrace width p s)[k].slot.toNat = p.toNat + k := by
  have hk' : k < width.bytes := by simpa using hk
  rw [straddles_iff] at hs
  have : p.toNat + k ≤ 0xFFFF := by omega
  simp [readTrace, readRecords_getElem, Cycle.arg, Cycle.slot, slots, slotAt_toNat p k this]

theorem writeTrace_slot (width : Width) (p : Port) (v : Data) (s : State) (hs : ¬ straddles p width.bytes = true) (k : Nat)
    (hk : k < (writeTrace width p v s).length) :
    (writeTrace width p v s)[k].arg = p ∧ (writeTrace width p v s)[k].slot.toNat = p.toNat + k := by
  have hk' : k < width.bytes := by simpa using hk
  rw [straddles_iff] at hs
  have : p.toNat + k ≤ 0xFFFF := by omega
  simp [writeTrace, writeRecords_getElem, Cycle.arg, Cycle.slot, writeBytes, slotAt_toNat p k this]

theorem readRecords_through (rd wr : Table) (arg : Port) (ss : List Port) (bs : List Byte) :
    ∀ c ∈ readRecords rd arg ss bs, Cycle.through rd wr c := by
  induction ss generalizing bs with
  | nil => simp [readRecords]
  | cons x ss ih =>
    cases bs with
    | nil => simp [readRecords]
    | cons b bs =>
      intro c hc
      rcases List.mem_cons.1 hc with rfl | hc
      · rfl
      · exact ih bs c hc

theorem writeRecords_through (rd wr : Table) (arg : Port) (ws : List (Port × Byte)) :
    ∀ c ∈ writeRecords wr arg ws, Cycle.through rd wr c := by
  intro c hc
  obtain ⟨w, _, rfl⟩ := List.mem_map.1 hc
  rfl

/-- Write cycles answer nothing. -/
theorem writeRecords_answered (a : Byte) (port : List DevXfer) (wr : Table) (arg : Port) (ws : List (Port × Byte)) :
    AnsweredAll a port (writeRecords wr arg ws) := by
  induction ws generalizing port with
  | nil => exact .nil _
  | cons w ws ih => exact .cons trivial (ih _)

theorem readAccess_did (width : Width) (p : Port) (s : State) (i : Instr) (hp : i.port = p) (hr : i.isRead = true)
    (hc : i.cycleCount = width.bytes) : ∃ t, readAccess width p s = .next t ∧ Did i s t := by
  refine ⟨_, readAccess_eq width p s, ?_⟩
  split_ifs with hs
  · exact .rejected _ _ (rejectRead_rejected width p s) rfl (.inl hr)
  · refine .serviced _ _ (serviceRead_serviced width p s) (fun k hk => hp ▸ readTrace_slot width p s hs k hk)
      (by simp [hc]) (readRecords_through _ _ _ _ _) (readCycles_answered p _ s)
      (fun _ => latchAfter_readRecords _ _ _ _ _) (.inl hr)

theorem writeAccess_did (width : Width) (p : Port) (v : Data) (s : State) (i : Instr) (hp : i.port = p)
    (hr : i.isRead = false) (hw : i.isWrite = true) (hc : i.cycleCount = width.bytes) :
    ∃ t, writeAccess width p v s = .next t ∧ Did i s t := by
  refine ⟨_, writeAccess_eq width p v s, ?_⟩
  split_ifs with hs
  · exact .rejected _ _ (rejectWrite_rejected width p v s) rfl (.inr hw)
  · refine .serviced _ _ (serviceWrite_serviced width p v s) (fun k hk => hp ▸ writeTrace_slot width p v s hs k hk)
      (by simp [hc]) (writeRecords_through _ _ _ _) (writeRecords_answered _ _ _ _ _)
      (fun h => by simp [hr] at h) (.inr hw)

/-- Every command answers a next state, and this says all it can have done (R121). -/
theorem exec_did (i : Instr) (s : State) : ∃ t, exec i s = .next t ∧ Did i s t := by
  cases i with
  | read8 p => exact readAccess_did .w8 p s _ rfl rfl rfl
  | read16 p => exact readAccess_did .w16 p s _ rfl rfl rfl
  | read32 p => exact readAccess_did .w32 p s _ rfl rfl rfl
  | write8 p v => exact writeAccess_did .w8 p _ s _ rfl rfl rfl rfl
  | write16 p v => exact writeAccess_did .w16 p _ s _ rfl rfl rfl rfl
  | write32 p v => exact writeAccess_did .w32 p v s _ rfl rfl rfl rfl
  | regRead p h =>
    by_cases he : externalHid h = true
    · exact ⟨_, by simp [exec, execRegRead, he], .bound p h he (.inl ⟨rfl, rfl⟩)⟩
    · exact ⟨_, by simp [exec, execRegRead, he], .refused rfl (by simpa [Instr.wf] using he)⟩
  | regWrite p h =>
    by_cases he : externalHid h = true
    · exact ⟨_, by simp [exec, execRegWrite, he], .bound p h he (.inr ⟨rfl, rfl⟩)⟩
    · exact ⟨_, by simp [exec, execRegWrite, he], .refused rfl (by simpa [Instr.wf] using he)⟩

/-- The inversion of a command: if it answers `t`, it did one of the four things. -/
theorem did_of_exec {i : Instr} {s t : State} (h : exec i s = .next t) : Did i s t := by
  obtain ⟨u, hu, hd⟩ := exec_did i s
  rw [hu] at h
  cases h
  exact hd

/-- What a step can do: wait, refuse the next command, or perform it. -/
theorem step_cases (s : State) :
    (s.commands = [] ∧ step s = .next s) ∨
    (∃ c rest r, s.commands = c :: rest ∧ c.accept = .refused r ∧ step s = .next (State.refuse { s with commands := rest } r)) ∨
    (∃ c rest i t, s.commands = c :: rest ∧ c.accept = .command i ∧ step s = .next t ∧
      exec i { s with commands := rest } = .next t ∧ Did i { s with commands := rest } t) := by
  cases hc : s.commands with
  | nil => exact .inl ⟨rfl, by simp [step, hc, State.idle]⟩
  | cons c rest =>
    cases ha : c.accept with
    | refused r => exact .inr (.inl ⟨c, rest, r, rfl, ha, by simp [step, State.take_cons s c rest hc, ha]⟩)
    | command i =>
      obtain ⟨t, ht, hd⟩ := exec_did i { s with commands := rest }
      exact .inr (.inr ⟨c, rest, i, t, rfl, ha, by simp [step, State.take_cons s c rest hc, ha, ht], ht, hd⟩)

end Sys2Proof.Machine
end

