-- ==== Sys2Proof/Laws/Encode.lean ====
section
/-! SUPPORT. The fields of a format C word (30_encoding.md R60), and that a word with RSV = 0 is its fields. -/

namespace Sys2Proof

@[simp] theorem cmdField_formatC (v : Data) (p : Port) (c : BitVec 4) : cmdField (formatC v p c) = c := by
  simp only [cmdField, formatC]
  ext i hi
  simp only [BitVec.getElem_extractLsb', BitVec.getLsbD_append]
  grind

@[simp] theorem portField_formatC (v : Data) (p : Port) (c : BitVec 4) : portField (formatC v p c) = p := by
  simp only [portField, formatC]
  ext i hi
  simp only [BitVec.getElem_extractLsb', BitVec.getLsbD_append]
  grind

@[simp] theorem payloadField_formatC (v : Data) (p : Port) (c : BitVec 4) : payloadField (formatC v p c) = v := by
  simp only [payloadField, formatC]
  ext i hi
  simp only [BitVec.getElem_extractLsb', BitVec.getLsbD_append]
  grind

@[simp] theorem rsvField_formatC (v : Data) (p : Port) (c : BitVec 4) : rsvField (formatC v p c) = 0#12 := by
  simp only [rsvField, formatC]
  ext i hi
  simp only [BitVec.getElem_extractLsb', BitVec.getLsbD_append]
  grind

/-- The bits above an 8-bit value are the payload's own upper bits (R63). -/
theorem payloadAbove8_eq (w : Word64) : payloadAbove8 w = (payloadField w).extractLsb' 8 24 := by
  simp only [payloadAbove8, payloadField]
  ext i hi
  simp
  grind

/-- The bits above a 16-bit value are the payload's own upper bits (R63). -/
theorem payloadAbove16_eq (w : Word64) : payloadAbove16 w = (payloadField w).extractLsb' 16 16 := by
  simp only [payloadAbove16, payloadField]
  ext i hi
  simp
  grind

/-- A word whose RSV field is zero is the format C word of its fields. -/
theorem formatC_fields (w : Word64) (h : rsvField w = 0#12) : formatC (payloadField w) (portField w) (cmdField w) = w := by
  have hb : ∀ j, 52 ≤ j → w.getLsbD j = false := by
    intro j hj
    by_cases h64 : j < 64
    · have := congrArg (fun x => BitVec.getLsbD x (j - 52)) h
      simpa [rsvField, show j - 52 < 12 by omega, show 52 + (j - 52) = j by omega] using this
    · exact BitVec.getLsbD_of_ge w j (by omega)
  apply BitVec.eq_of_getLsbD_eq
  intro i hi
  simp only [formatC, payloadField, portField, cmdField, BitVec.getLsbD_append, BitVec.getLsbD_extractLsb']
  have := hb i
  grind

/-! ### The fields as numbers -/

theorem rsvField_toNat (w : Word64) : (rsvField w).toNat = w.toNat / 2 ^ 52 := by
  have := w.isLt
  simp [rsvField, Nat.shiftRight_eq_div_pow]; omega

theorem cmdField_toNat (w : Word64) : (cmdField w).toNat = w.toNat % 16 := by simp [cmdField]

theorem payloadField_toNat (w : Word64) : (payloadField w).toNat = w.toNat / 2 ^ 20 % 2 ^ 32 := by
  simp [payloadField, Nat.shiftRight_eq_div_pow]

theorem portField_toNat (w : Word64) : (portField w).toNat = w.toNat / 2 ^ 4 % 2 ^ 16 := by
  simp [portField, Nat.shiftRight_eq_div_pow]

theorem payloadAbove8_toNat (w : Word64) : (payloadAbove8 w).toNat = (w.toNat / 2 ^ 20 % 2 ^ 32) / 2 ^ 8 := by
  simp [payloadAbove8, Nat.shiftRight_eq_div_pow]; omega

theorem payloadAbove16_toNat (w : Word64) : (payloadAbove16 w).toNat = (w.toNat / 2 ^ 20 % 2 ^ 32) / 2 ^ 16 := by
  simp [payloadAbove16, Nat.shiftRight_eq_div_pow]; omega

/-! ### Words by their fields, and masks -/

/-- Two words are equal when their four fields are. -/
theorem word_ext (w x : Word64) : w = x ↔
    rsvField w = rsvField x ∧ payloadField w = payloadField x ∧ portField w = portField x ∧ cmdField w = cmdField x := by
  constructor
  · rintro rfl; simp
  · rintro ⟨a, b, c, d⟩
    apply BitVec.eq_of_toNat_eq
    have a := congrArg BitVec.toNat a
    have b := congrArg BitVec.toNat b
    have c := congrArg BitVec.toNat c
    have d := congrArg BitVec.toNat d
    simp only [rsvField_toNat, payloadField_toNat, portField_toNat, cmdField_toNat] at a b c d
    omega

/-- A masked comparison, field by field (R75). -/
theorem mask_iff (w m k : Word64) : w &&& m = k ↔
    rsvField w &&& rsvField m = rsvField k ∧ payloadField w &&& payloadField m = payloadField k ∧
      portField w &&& portField m = portField k ∧ cmdField w &&& cmdField m = cmdField k := by
  rw [word_ext]
  simp [rsvField, payloadField, portField, cmdField, BitVec.extractLsb'_and]

/-- A 32-bit value masked to its bits from `n` up is zero when those bits are. -/
theorem and_upper_eq_zero (v m : Data) (n : Nat) (hn : n ≤ 32) (hi : ∀ i < 32 - n, m.getLsbD (n + i) = true)
    (lo : ∀ i < n, m.getLsbD i = false) : v &&& m = 0#32 ↔ v.extractLsb' n (32 - n) = 0#(32 - n) := by
  constructor
  · intro h
    apply BitVec.eq_of_getLsbD_eq
    intro i hlt
    have := congrArg (fun x => BitVec.getLsbD x (n + i)) h
    simp only [BitVec.getLsbD_and, hi i hlt, Bool.and_true] at this
    simpa [hlt] using this
  · intro h
    apply BitVec.eq_of_getLsbD_eq
    intro i hlt
    rw [BitVec.getLsbD_and]
    by_cases hl : i < n
    · rw [lo i hl]; simp
    · have := congrArg (fun x => BitVec.getLsbD x (i - n)) h
      simp [show i - n < 32 - n by omega, show n + (i - n) = i by omega] at this
      simp [this]

theorem payload_mask8_iff (w : Word64) : payloadField w &&& 0xFFFFFF00#32 = 0#32 ↔ payloadAbove8 w = 0#24 := by
  rw [payloadAbove8_eq]
  exact and_upper_eq_zero _ _ 8 (by omega) (by decide) (by decide)

theorem payload_mask16_iff (w : Word64) : payloadField w &&& 0xFFFF0000#32 = 0#32 ↔ payloadAbove16 w = 0#16 := by
  rw [payloadAbove16_eq]
  exact and_upper_eq_zero _ _ 16 (by omega) (by decide) (by decide)

/-! ### What the decoder answers -/

/-- An accepted word: its command is well formed, and has the word's fields. -/
theorem decode_command {w : Word64} {i : Instr} (h : decode w = .command i) :
    i.wf = true ∧ rsvField w = 0#12 ∧ i.cmdCode = cmdField w ∧ i.port = portField w ∧ i.payload = payloadField w := by
  unfold decode unusedZero externalOnly at h
  split_ifs at h <;> simp at h <;> subst h <;> simp_all [Instr.wf, Instr.cmdCode, Instr.port, Instr.payload]
  · rename_i h2
    rw [payloadAbove8_eq] at h2
    ext i hi
    have := congrArg (fun x => BitVec.getLsbD x (i - 8)) h2
    simp at this ⊢
    grind
  · rename_i h2
    rw [payloadAbove16_eq] at h2
    ext i hi
    have := congrArg (fun x => BitVec.getLsbD x (i - 16)) h2
    simp at this ⊢
    grind

end Sys2Proof
end

