-- ==== Sys2Proof/Laws/PerInstr.lean ====
section
/-! SUPPORT. The families of LAWS.json: statements made of every instruction, one lemma a constructor. -/

namespace Sys2Proof.Laws.EncodeFields

/-- The encoded word holds the command's code, port and payload in their fields, and RSV is zero (R60, R61, R65). -/
def Statement (i : Instr) : Prop :=
  cmdField (encode i) = i.cmdCode ∧ portField (encode i) = i.port ∧ payloadField (encode i) = i.payload ∧
    rsvField (encode i) = 0#12

/-- The fields of any encoded command, from the fields of a format C word. -/
theorem of_formatC (i : Instr) : Statement i := by simp [Statement, encode]

theorem read8 (p : Port) : Statement (.read8 p) := of_formatC _
theorem read16 (p : Port) : Statement (.read16 p) := of_formatC _
theorem read32 (p : Port) : Statement (.read32 p) := of_formatC _
theorem write8 (p : Port) (v : BitVec 8) : Statement (.write8 p v) := of_formatC _
theorem write16 (p : Port) (v : BitVec 16) : Statement (.write16 p v) := of_formatC _
theorem write32 (p : Port) (v : BitVec 32) : Statement (.write32 p v) := of_formatC _
theorem regRead (p : Port) (h : HID) : Statement (.regRead p h) := of_formatC _
theorem regWrite (p : Port) (h : HID) : Statement (.regWrite p h) := of_formatC _

end Sys2Proof.Laws.EncodeFields
end

