-- ==== Sys2Proof/Laws/Run.lean ====
section
/-! SUPPORT. Steps and runs: the induction over a run, packaged once, and what a command leaves alone whatever it does. -/

namespace Sys2Proof.Machine

/-- A command that is performed is well formed. -/
theorem accept_wf {c : Command} {i : Instr} (h : c.accept = .command i) : i.wf = true := by
  unfold Command.accept at h
  split at h
  · cases h
  · rename_i hd
    split_ifs at h
    cases h
    exact (decode_command hd).1

/-- No command takes or presents a command. -/
theorem did_commands {i : Instr} {s t : State} (h : Did i s t) : t.commands = s.commands := by
  cases h with
  | serviced cs d h => exact h.ran.commands
  | rejected r d h => exact h.commands
  | bound p h _ hi => rcases hi with ⟨_, rfl⟩ | ⟨_, rfl⟩ <;> simp
  | refused h => simp [h]

/-- The mode is fixed (R26). -/
theorem did_diagEn {i : Instr} {s t : State} (h : Did i s t) : t.diagEn = s.diagEn := by
  cases h with
  | serviced cs d h => exact h.ran.diagEn
  | rejected r d h => exact h.diagEn
  | bound p h _ hi => rcases hi with ⟨_, rfl⟩ | ⟨_, rfl⟩ <;> simp
  | refused h => simp [h]

/-- A step that answers `t` waited, refused the next command, or performed it. -/
theorem step_inversion {s t : State} (h : step s = .next t) :
    t = s ∨ (∃ rest r, t = State.refuse { s with commands := rest } r) ∨
      ∃ rest i, exec i { s with commands := rest } = .next t := by
  rcases step_cases s with ⟨_, hs⟩ | ⟨_, rest, r, _, _, hs⟩ | ⟨_, rest, i, u, _, _, hs, he, _⟩ <;> rw [hs] at h <;> cases h
  · exact .inl rfl
  · exact .inr (.inl ⟨rest, r, rfl⟩)
  · exact .inr (.inr ⟨rest, i, he⟩)

/-- Every step answers a next state. -/
theorem step_next (s : State) : ∃ t, step s = .next t := by
  rcases step_cases s with ⟨_, hs⟩ | ⟨_, _, _, _, _, hs⟩ | ⟨_, _, _, _, _, _, hs, _, _⟩ <;> exact ⟨_, hs⟩

theorem runSteps_zero (s : State) : runSteps 0 s = .next s := rfl

theorem runSteps_succ {k : Nat} {s t : State} (h : step s = .next t) : runSteps (k + 1) s = runSteps k t := by
  simp only [runSteps, h]

theorem run_succ (M : Host.Core) {k : Nat} {s t : M.State} (h : M.step s = .next t) : M.run (k + 1) s = M.run k t := by
  simp only [Host.Core.run, h]

/-- The runs of the claims are the host's runs of the machine. -/
theorem core_run_eq (k : Nat) (s : State) : Sys2Proof.core.run k s = runSteps k s := by
  induction k generalizing s with
  | zero => rfl
  | succ k ih =>
    obtain ⟨t, ht⟩ := step_next s
    exact (run_succ Sys2Proof.core ht).trans ((ih t).trans (runSteps_succ ht).symm)

/-- Every run answers a next state. -/
theorem runSteps_next (k : Nat) (s : State) : ∃ t, runSteps k s = .next t := by
  induction k generalizing s with
  | zero => exact ⟨s, rfl⟩
  | succ k ih =>
    obtain ⟨t, ht⟩ := step_next s
    rw [runSteps_succ ht]
    exact ih t

/-- A relation that is reflexive and transitive and that every step is in holds along every run. -/
theorem runSteps_induction (P : State → State → Prop) (refl : ∀ s, P s s) (trans : ∀ s t u, P s t → P t u → P s u)
    (one : ∀ s t, step s = .next t → P s t) (k : Nat) (s t : State) (h : runSteps k s = .next t) : P s t := by
  induction k generalizing s with
  | zero => cases h; exact refl _
  | succ k ih =>
    obtain ⟨u, hu⟩ := step_next s
    rw [runSteps_succ hu] at h
    exact trans _ _ _ (one s u hu) (ih u h)

theorem execAll_cons {i : Instr} {is : List Instr} {s t : State} (h : exec i s = .next t) :
    execAll (i :: is) s = execAll is t := by simp [execAll, h]

/-- Commands performed one after the other answer a next state. -/
theorem execAll_next (is : List Instr) (s : State) : ∃ t, execAll is s = .next t := by
  induction is generalizing s with
  | nil => exact ⟨s, rfl⟩
  | cons i is ih =>
    obtain ⟨t, ht, _⟩ := exec_did i s
    rw [execAll_cons ht]
    exact ih t

/-- A relation that is reflexive and transitive and that every listed command is in holds along the list. -/
theorem execAll_induction (P : State → State → Prop) (refl : ∀ s, P s s) (trans : ∀ s t u, P s t → P t u → P s u)
    (is : List Instr) (one : ∀ i ∈ is, ∀ s t, exec i s = .next t → P s t) (s t : State) (h : execAll is s = .next t) :
    P s t := by
  induction is generalizing s with
  | nil => cases h; exact refl _
  | cons i is ih =>
    obtain ⟨u, hu, _⟩ := exec_did i s
    rw [execAll_cons hu] at h
    exact trans _ _ _ (one i (by simp) s u hu) (ih (fun j hj => one j (by simp [hj])) u h)

/-- Every entry of `b` is the one of `a` or an external handler: what registrations do to an array (R84). -/
def Table.extends (a b : Table) : Prop := ∀ p, Table.read b p = Table.read a p ∨ externalHid (Table.read b p) = true

theorem Table.extends_refl (a : Table) : Table.extends a a := fun _ => .inl rfl

theorem Table.extends_trans {a b c : Table} (h : Table.extends a b) (g : Table.extends b c) : Table.extends a c := by
  intro p
  rcases g p with g | g
  · rw [g]; exact h p
  · exact .inr g

theorem Table.extends_write (a : Table) (p : Port) (h : HID) (he : externalHid h = true) :
    Table.extends a (Table.write a p h) := by
  intro q
  rw [Table.read_write _ _ _ _ (externalHid_ne_stub h he)]
  split_ifs
  · exact .inr he
  · exact .inl rfl

/-- No command binds a built-in handler to an entry. -/
theorem did_extends {i : Instr} {s t : State} (h : Did i s t) : Table.extends s.rd t.rd ∧ Table.extends s.wr t.wr := by
  cases h with
  | serviced cs d h => rw [h.ran.rd, h.ran.wr]; exact ⟨Table.extends_refl _, Table.extends_refl _⟩
  | rejected r d h => rw [h.rd, h.wr]; exact ⟨Table.extends_refl _, Table.extends_refl _⟩
  | bound p h he hi =>
    rcases hi with ⟨_, rfl⟩ | ⟨_, rfl⟩
    · exact ⟨Table.extends_write _ _ _ he, Table.extends_refl _⟩
    · exact ⟨Table.extends_refl _, Table.extends_write _ _ _ he⟩
  | refused h => subst h; exact ⟨Table.extends_refl _, Table.extends_refl _⟩

/-- No run binds a built-in handler to an entry. -/
theorem runSteps_extends (k : Nat) (s t : State) (h : runSteps k s = .next t) :
    Table.extends s.rd t.rd ∧ Table.extends s.wr t.wr := by
  refine runSteps_induction (fun s t => Table.extends s.rd t.rd ∧ Table.extends s.wr t.wr)
    (fun s => ⟨Table.extends_refl _, Table.extends_refl _⟩)
    (fun s t u a b => ⟨Table.extends_trans a.1 b.1, Table.extends_trans a.2 b.2⟩) (fun s t h => ?_) k s t h
  rcases step_inversion h with rfl | ⟨rest, r, rfl⟩ | ⟨rest, i, he⟩
  · exact ⟨Table.extends_refl _, Table.extends_refl _⟩
  · exact ⟨Table.extends_refl _, Table.extends_refl _⟩
  · have := did_extends (did_of_exec he)
    exact this

/-- Cycles none of which writes the latch leave it as it was. -/
theorem latchAfter_none (a : Byte) (cs : List Cycle) (h : ∀ c ∈ cs, c.writesLatch = false) : latchAfter a cs = a := by
  induction cs generalizing a with
  | nil => rfl
  | cons c cs ih =>
    have hc : Cycle.latched a c = a := by
      have := h c (by simp)
      cases c <;> simp_all [Cycle.latched, Cycle.writesLatch]
    show latchAfter (Cycle.latched a c) cs = a
    rw [hc]
    exact ih a fun c hc => h c (by simp [hc])

/-- Cycles that went through slots whose write entries are not the A20 handler do not write the latch. -/
theorem through_writesLatch (rd wr : Table) (cs : List Cycle) (ht : ∀ c ∈ cs, Cycle.through rd wr c)
    (h : ∀ c ∈ cs, Table.read wr c.slot ≠ hidA20) : ∀ c ∈ cs, c.writesLatch = false := by
  intro c hc
  have h1 := ht c hc
  have h2 := h c hc
  cases c with
  | rd slot g arg b => rfl
  | wr slot g arg b =>
    simp only [Cycle.through] at h1
    simpa [Cycle.writesLatch, Cycle.slot, h1] using h2

/-- Without a write entry bound to the A20 handler no command changes the latch (R34). -/
theorem did_a20 {i : Instr} {s t : State} (h : Did i s t) (hw : ∀ p, Table.read s.wr p ≠ hidA20) : t.a20 = s.a20 := by
  cases h with
  | serviced cs d h _ _ th =>
    rw [h.ran.a20]
    exact latchAfter_none _ _ (through_writesLatch _ _ _ th fun c _ => hw _)
  | rejected r d h => exact h.a20
  | bound p h _ hi => rcases hi with ⟨_, rfl⟩ | ⟨_, rfl⟩ <;> rfl
  | refused h => subst h; rfl

end Sys2Proof.Machine
end

