-- ==== Sys2Proof/Tests/Slice0.lean ====
section
/-! SUPPORT. The model's own tests. Expected results are those of 95_test_vectors.md (named in each comment), which are written out from the
spec's rules and not from this model; and, for every statement with hypotheses, a witness that meets them. -/

open Sys2Proof Sys2Proof.Machine

namespace Sys2Proof.Tests

/-- `S0(d, a)` of 95_test_vectors.md with the given words presented. -/
def s0 (d : Bool) (a : Byte) (words : List Word64) : State :=
  { State.construct d a with commands := words.map fun w => ⟨w, false⟩ }

/-- What holds of the state a command answers. -/
def after {α : Type} (r : Result) (f : State → α) : Option α :=
  match r with
  | .next t => some (f t)
  | .fault _ => none
  | .refused _ => none

/-- Read and write bindings for port 0x3F4 and 0x3F5 (P2). -/
def p2 : State :=
  { State.construct false 0#8 with
    rd := [(0x92, 1#32), (0x3F4, 2#32), (0x3F5, 3#32)]
    wr := [(0x92, 1#32), (0x3F4, 4#32), (0x3F5, 5#32)] }

/-! ### WellFormed refuses -/

theorem test_wf_regRead_stub : (Instr.regRead 0x60#16 0#32).wf = false := by decide
theorem test_wf_regRead_a20 : (Instr.regRead 0x60#16 1#32).wf = false := by decide
theorem test_wf_regRead_first_external : (Instr.regRead 0x60#16 2#32).wf = true := by decide
theorem test_wf_regWrite_stub : (Instr.regWrite 0x60#16 0#32).wf = false := by decide
theorem test_wf_regWrite_a20 : (Instr.regWrite 0x60#16 1#32).wf = false := by decide

/-! ### Decoding: words written out bit by bit from R60 (RSV, PAYLOAD, PORT, CMD) and opcode_table.json -/

theorem test_decode_read8_bits :
    decode 0b000000000000_00000000000000000000000000000000_0000000010010010_0001#64 = .command (.read8 0x92#16) := by decide
theorem test_decode_read16_bits :
    decode 0b000000000000_00000000000000000000000000000000_1111111111111110_0010#64 = .command (.read16 0xFFFE#16) := by decide
theorem test_decode_read32_bits :
    decode 0b000000000000_00000000000000000000000000000000_1111111111111100_0011#64 = .command (.read32 0xFFFC#16) := by decide
theorem test_decode_write8_bits :
    decode 0b000000000000_00000000000000000000000010101010_0000000001100000_0101#64 = .command (.write8 0x60#16 0xAA#8) := by
  decide
theorem test_decode_write16_bits :
    decode 0b000000000000_00000000000000000001001000110100_0000001111110100_0110#64 = .command (.write16 0x3F4#16 0x1234#16) := by
  decide
theorem test_decode_write32_bits :
    decode 0b000000000000_10101010101110111100110011011101_0001000000000000_0111#64 =
      .command (.write32 0x1000#16 0xAABBCCDD#32) := by decide
theorem test_decode_regRead_bits :
    decode 0b000000000000_00000000000000000000000000010100_0000000001100000_1000#64 = .command (.regRead 0x60#16 20#32) := by
  decide
theorem test_decode_regWrite_bits :
    decode 0b000000000000_11111111111111111111111111111111_1111111111111111_1001#64 =
      .command (.regWrite 0xFFFF#16 0xFFFFFFFF#32) := by decide
/-- V-DEC-2 to V-DEC-4. -/
theorem test_decode_reserved_commands :
    decode 0x0000000000000600#64 = .refused .reservedCommand ∧ decode 0x0000000000000604#64 = .refused .reservedCommand ∧
      decode 0x000000000000060A#64 = .refused .reservedCommand ∧ decode 0x000000000000060F#64 = .refused .reservedCommand := by
  decide
/-- V-DEC-5 and V-DEC-13: the RSV check comes first. -/
theorem test_decode_rsv_first :
    decode 0x0010000000000601#64 = .refused .reservedBitsSet ∧ decode 0x0010000000000600#64 = .refused .reservedBitsSet ∧
      decode 0x8000000000000601#64 = .refused .reservedBitsSet := by decide
/-- V-DEC-6, V-DEC-7, V-DEC-9. -/
theorem test_decode_unused_payload :
    decode 0x0000000000100601#64 = .refused .nonzeroUnusedPayload ∧
      decode 0x0000000010000605#64 = .refused .nonzeroUnusedPayload ∧
      decode 0x0000001000000606#64 = .refused .nonzeroUnusedPayload := by decide
/-- V-DEC-10, V-DEC-11. -/
theorem test_decode_builtin_id :
    decode 0x0000000000000608#64 = .refused .builtinHandlerId ∧
      decode 0x0000000000100929#64 = .refused .builtinHandlerId := by decide
/-- The decoder reads the host's table words. -/
theorem test_decodeTableWord :
    decodeTableWord 64 0x0000000123403F46 = some (.write16 0x3F4#16 0x1234#16) ∧ decodeTableWord 64 0x0 = none := by decide

/-! ### Commands -/

/-- V-A8-1 and V-A8-2. -/
theorem test_read8_stub : after (step (s0 false 0#8 [0x0000000000000601#64])) (fun t => (t.responses, t.hist)) =
    some ([0x000000FF00000000#64], [.rd 0x60#16 0#32 0x60#16 0xFF#8]) := by decide
/-- V-A8-5. -/
theorem test_read8_a20 : after (step (s0 false 0x5A#8 [0x0000000000000921#64])) (·.responses) =
    some [0x0000005A00000000#64] := by decide
/-- L1-9: the write; its port does not reach a device. -/
theorem test_write8_a20 : after (step (s0 false 0#8 [0x0000000000200925#64])) (fun t => (t.a20, t.devPort, t.responses)) =
    some (0x02#8, [], [0#64]) := by decide
/-- P4 step 9: through an external handler, once, and no diagnostic record. -/
theorem test_write8_external :
    after (exec (.write8 0x3F5#16 0x9A#8) { p2 with diagEn := true }) (fun t => (t.hist, t.devPort, t.diagOut)) =
      some ([.wr 0x3F5#16 5#32 0x3F5#16 0x9A#8], [.write 5#32 0x3F5#16 0x9A#8], []) := by decide
/-- V-RD16-4: mixed handlers, both with the starting port. -/
theorem test_read16_mixed : after (step (s0 false 0xAB#8 [0x0000000000000912#64])) (fun t => (t.responses, t.hist)) =
    some ([0x0000ABFF00000000#64], [.rd 0x91#16 0#32 0x91#16 0xFF#8, .rd 0x92#16 1#32 0x91#16 0xAB#8]) := by decide
/-- V-RD16-3: the rejection, whose data is not defined. -/
theorem test_read16_rejected :
    after (step (s0 false 0#8 [0x00000000000FFFF2#64])) (fun t => (t.hist, t.diagOut, t.responses.length)) =
      some ([], [.reject .read .w16 0xFFFF#16 none], 1) := by decide
/-- V-RD32-4. -/
theorem test_read32_mixed : after (step (s0 false 0xAB#8 [0x0000000000000903#64])) (·.responses) =
    some [0xFFABFFFF00000000#64] := by decide
/-- V-RD32-2: the last serviced port. -/
theorem test_read32_top : after (step (s0 false 0#8 [0x00000000000FFFC3#64])) (fun t => t.hist.map Cycle.slot) =
    some [0xFFFC#16, 0xFFFD#16, 0xFFFE#16, 0xFFFF#16] := by decide
/-- V-WR16-4: the high byte reaches the latch. -/
theorem test_write16_a20 : after (step (s0 false 0#8 [0x0000000ABCD00916#64])) (·.a20) = some 0xAB#8 := by decide
/-- V-WR16-3. -/
theorem test_write16_rejected :
    after (step (s0 false 0#8 [0x0000000BEEFFFFF6#64])) (fun t => (t.responses, t.hist, t.diagOut)) =
      some ([0x0000000000000001#64], [], [.reject .write .w16 0xFFFF#16 (some 0xBEEF#32)]) := by decide
/-- V-WR32-1. -/
theorem test_write32_bytes : after (step (s0 false 0#8 [0x000AABBCCDD10007#64])) (·.hist) =
    some [.wr 0x1000#16 0#32 0x1000#16 0xDD#8, .wr 0x1001#16 0#32 0x1000#16 0xCC#8,
      .wr 0x1002#16 0#32 0x1000#16 0xBB#8, .wr 0x1003#16 0#32 0x1000#16 0xAA#8] := by decide
/-- V-WR32-2. -/
theorem test_write32_rejected :
    after (step (s0 true 0#8 [0x000DEADBEEFFFFD7#64])) (fun t => (t.responses, t.hist, t.diagOut)) =
      some ([0x0000000000000001#64], [], [.reject .write .w32 0xFFFD#16 (some 0xDEADBEEF#32)]) := by decide
/-- V-REG-1. -/
theorem test_regRead : after (step (s0 true 0#8 [0x0000000001400608#64]))
    (fun t => (Table.read t.rd 0x60#16, Table.read t.wr 0x60#16, t.responses, t.hist.length + t.diagOut.length)) =
      some (20#32, 0#32, [0#64], 0) := by decide
/-- V-REG-2: the last registration wins. -/
theorem test_regRead_again : after (exec (.regRead 0x3F4#16 21#32) p2) (·.rd) =
    some [(0x92, 1#32), (0x3F4, 21#32), (0x3F5, 3#32)] := by decide
/-- V-REG-3: the A20 write capability is replaced. -/
theorem test_regWrite_a20 : after (step (s0 false 0#8 [0x0000000001E00929#64]))
    (fun t => (Table.read t.rd 0x92#16, Table.read t.wr 0x92#16)) = some (1#32, 30#32) := by decide
/-- R81: any port, in order among the others. -/
theorem test_regWrite_top : after (exec (.regWrite 0xFFFF#16 13#32) p2) (·.wr) =
    some [(0x92, 1#32), (0x3F4, 4#32), (0x3F5, 5#32), (0xFFFF, 13#32)] := by decide

/-! ### The diagnostic mode, refusal, and the assembler -/

/-- V-RD32-5: four records, all with the starting port. -/
theorem test_diag_stub_ports : after (step (s0 true 0#8 [0x0000000000010003#64]))
    (fun t => t.diagOut.map fun
      | .stub _ arg slot value _ => (arg, slot, value)
      | .reject _ _ p _ => (p, p, 0#8)) =
    some [(0x1000#16, 0x1000#16, 0xFF#8), (0x1000#16, 0x1001#16, 0xFF#8), (0x1000#16, 0x1002#16, 0xFF#8),
      (0x1000#16, 0x1003#16, 0xFF#8)] := by decide
/-- R66 and R121: a refused word sets the mark and answers nothing. -/
theorem test_refused_word : after (step (s0 false 0#8 [0x0000000000000600#64]))
    (fun t => (t.refusalMark, t.refusals, t.responses, t.hist)) = some (true, [.reservedCommand], [], []) := by decide
/-- R125: a command issued by a handler during its byte cycle. -/
theorem test_reentrant :
    after (step { State.construct false 0#8 with commands := [⟨0x0000000000000601#64, true⟩] }) (·.refusals) =
      some [.reentrantCommand] := by decide
/-- R70 and R71. -/
theorem test_assemble_write8 : assembleLine "WRITE8 0x92, 0x02 ; gate".toList = .commands [.write8 0x92#16 0x02#8] := by decide
theorem test_assemble_span :
    assembleLine "REG_READ_SPAN 0x3F4, 2, h6".toList = .commands [.regRead 0x3F4#16 6#32, .regRead 0x3F5#16 6#32] := by decide
theorem test_assemble_out_of_range : assembleLine "WRITE8 0x92, 256".toList = .error .operandOutOfRange := by decide
theorem test_assemble_builtin : assembleLine "REG_WRITE 0x92, h1".toList = .error .operandOutOfRange := by decide

/-! ### The machine runs the host's word first after reset -/

theorem test_reset_runs_read8 : after (step (State.reset.withFetchWord 64 0x0000000000000601)) (·.responses) =
    some [0x000000FF00000000#64] := by decide

/-! ### Witnesses: a state and operands that meet the hypotheses of each statement, at the ends of their ranges -/

theorem witness_EncodedCommandDecodesToItself :
    (Instr.regRead 0xFFFF#16 2#32).wf = true ∧ (Instr.regWrite 0#16 0xFFFFFFFF#32).wf = true ∧
      (Instr.write8 0x92#16 0xFF#8).wf = true := by decide
theorem witness_AcceptedWordIsTheEncodingOfItsCommand :
    ∃ w i, decode w = .command i := ⟨0x0000000000200608#64, .regRead 0x60#16 2#32, by decide⟩

/-- One word for each clause of the first part, in its order, at the boundary. -/
def clauseWords : List (Word64 × Nat × Nat × Nat) :=
  [(0x0010000000000601#64, 1, 1, 0), (0x0000000000000600#64, 0, 0, 0), (0x000000000000060A#64, 0, 10, 0),
   (0x0000000000100601#64, 0, 1, 1), (0x0000000010000605#64, 0, 5, 256), (0x0000001000000606#64, 0, 6, 65536),
   (0x0000000000100929#64, 0, 9, 1), (0x0000000000000601#64, 0, 1, 0), (0x0000000000000602#64, 0, 2, 0),
   (0x0000000000000603#64, 0, 3, 0), (0x000000000FF00605#64, 0, 5, 255), (0x0000000FFFF00606#64, 0, 6, 65535),
   (0x0000000000000607#64, 0, 7, 0), (0x0000000000200608#64, 0, 8, 2), (0x0000000000200609#64, 0, 9, 2)]

theorem witness_DecodeRefusesAtFirstFailingCheck :
    (∀ c ∈ clauseWords, c.2.1 = c.1.toNat / 2 ^ 52 ∧ c.2.2.1 = c.1.toNat % 16 ∧ c.2.2.2 = c.1.toNat / 2 ^ 20 % 2 ^ 32 ∧
      (portField c.1).toNat = c.1.toNat / 2 ^ 4 % 2 ^ 16) ∧
    (s0 false 0#8 [0x0000000000000600#64]).commands = ⟨0x0000000000000600#64, false⟩ :: [] ∧
    decode 0x0000000000000600#64 = .refused .reservedCommand := by decide
theorem witness_WordSelectsRowExactlyByMask :
    (0x60#16 = (0x0000000000200608#64).extractLsb' 4 16 ∧ 2#32 = (0x0000000000200608#64).extractLsb' 20 32) ∧
    opcodeRows.map (fun r => r.selects 0x0000000000200608#64) = [false, false, false, false, false, false, true, false] ∧
    opcodeRows.map (fun r => r.selects 0x0000000000100608#64) = List.replicate 8 false := by decide
theorem witness_PseudoInstructionsExpandInOrder :
    (1 ≤ 2 ∧ (0xFFFE#16).toNat + 2 - 1 ≤ 0xFFFF) ∧ ¬ (1 ≤ 2 ∧ (0xFFFF#16).toNat + 2 - 1 ≤ 0xFFFF) ∧
      ¬ (1 ≤ 0 ∧ (0#16).toNat + 0 - 1 ≤ 0xFFFF) := by decide
theorem witness_StepRunsTheDecodedCommand :
    (s0 true 7#8 [0x0000000000000921#64]).commands = ⟨0x0000000000000921#64, false⟩ :: [] ∧
    decode 0x0000000000000921#64 = .command (.read8 0x92#16) ∧
    decode (BitVec.ofNat 64 (0x0000000000000921 % 2 ^ 64)) = .command (.read8 0x92#16) := by decide
theorem witness_StepWaitsForACommand : State.reset.commands = [] := rfl
theorem witness_ReentrantCommandIsRefused :
    ∃ (s : State) (w : Word64) (rest : List Command) (i : Instr),
      s.commands = ⟨w, true⟩ :: rest ∧ decode w = .command i :=
  ⟨{ p2 with commands := [⟨0x601#64, true⟩] }, 0x601#64, [], .read8 0x60#16, rfl, by decide⟩
theorem witness_AcceptedCommandCompletesWithResponse :
    (s0 false 0#8 [0x00000000000FFFF2#64]).commands = ⟨0x00000000000FFFF2#64, false⟩ :: [] ∧
    decode 0x00000000000FFFF2#64 = .command (.read16 0xFFFF#16) := by decide
theorem witness_EveryCommandHasOneOutcome :
    (s0 false 0#8 [0#64]).commands = ⟨0#64, false⟩ :: [] := rfl
theorem witness_HistoryGrowsAndRefusalMarkStays :
    (∃ t, runSteps 2 (s0 false 0#8 [0#64, 0x601#64]) = .next t ∧ t.refusalMark = true) ∧
    (s0 false 0#8 [0#64]).commands = ⟨0#64, false⟩ :: [] ∧ Command.accept ⟨0#64, false⟩ = .refused .reservedCommand :=
  ⟨⟨_, rfl, by decide⟩, rfl, by decide⟩
theorem witness_RegReadBindsTheReadEntry :
    ((0x0000000000203F48#64 &&& 0xFFF000000000000F#64 = 0x8#64) ∧ 2 ≤ ((0x0000000000203F48#64).extractLsb' 20 32).toNat) ∧
    (∀ q, q ≠ 0x92#16 → Table.read (State.construct true 0#8).rd q ≠ hidA20) ∧
    (∃ t u, exec (.regRead 0x92#16 40#32) (State.construct true 0#8) = .next t ∧ runSteps 1 t = .next u) ∧
    Table.read p2.rd 0x3F4#16 = 2#32 := by
  refine ⟨by decide, fun q hq => ?_, ⟨_, _, rfl, rfl⟩, by decide⟩
  rw [State.construct_rd, Table.read_construct, if_neg hq]
  decide
theorem witness_RegWriteBindsTheWriteEntry :
    ((0x0000000000403F49#64 &&& 0xFFF000000000000F#64 = 0x9#64) ∧ 2 ≤ ((0x0000000000403F49#64).extractLsb' 20 32).toNat) ∧
    (∀ q, q ≠ 0x92#16 → Table.read (State.construct true 0#8).wr q ≠ hidA20) ∧
    (∃ t u, exec (.regWrite 0x92#16 30#32) (State.construct true 0#8) = .next t ∧ runSteps 1 t = .next u) ∧
    Table.read p2.wr 0x3F4#16 = 4#32 := by
  refine ⟨by decide, fun q hq => ?_, ⟨_, _, rfl, rfl⟩, by decide⟩
  rw [State.construct_wr, Table.read_construct, if_neg hq]
  decide
theorem witness_HandlerEntriesAreIndependent :
    (∃ t, exec (.regRead 0x3F4#16 9#32) p2 = .next t) ∧ (∃ t, exec (.regWrite 0x3F4#16 9#32) p2 = .next t) ∧
      0x3F5#16 ≠ 0x3F4#16 := ⟨⟨_, rfl⟩, ⟨_, rfl⟩, by decide⟩
theorem witness_OnlyRegistrationWritesTheArrays :
    (∃ t, exec (.write32 0x91#16 5#32) p2 = .next t) ∧ (Instr.write32 0x91#16 5#32).isRegRead = false ∧
      (Instr.write32 0x91#16 5#32).isRegWrite = false := ⟨⟨_, rfl⟩, rfl, rfl⟩
theorem witness_LastRegistrationWins :
    (s0 false 0#8 [0x1400608#64, 0x1500608#64]).commands = [⟨0x1400608#64, false⟩, ⟨0x1500608#64, false⟩] ∧
    lastReadBinding 0x60#16 [⟨0x1400608#64, false⟩, ⟨0x1500608#64, false⟩] 0#32 = 21#32 ∧
    2 ≤ (2#32 : HID).toNat ∧
    (∃ t, runSteps 1 { p2 with commands := [⟨0x601#64, false⟩] } = .next t) ∧ Table.read p2.rd 0x92#16 ≠ hidStub ∧
    Table.read p2.wr 0x92#16 ≠ hidStub := ⟨rfl, by decide, by decide, ⟨_, rfl⟩, by decide, by decide⟩
theorem witness_BuiltinHandlersCannotBeRegistered :
    ((0x0000000000100929#64).extractLsb' 52 12 = 0#12 ∧ (0x0000000000100929#64).extractLsb' 0 4 = 0x9#4 ∧
      hidA20 = (0x0000000000100929#64).extractLsb' 20 32) ∧
    ((0x0000000000000608#64).extractLsb' 0 4 = 0x8#4 ∧ hidStub = (0x0000000000000608#64).extractLsb' 20 32) ∧
    (∃ t, runSteps 1 { p2 with commands := [⟨0x1400608#64, false⟩] } = .next t ∧ Table.read t.rd 0x92#16 = hidA20) :=
  ⟨by decide, by decide, ⟨_, rfl, by decide⟩⟩
theorem witness_IllFormedRegistrationIsRefused : (0#32 : HID).toNat < 2 ∧ (1#32 : HID).toNat < 2 := by decide
theorem witness_A20CapabilityOnceLostStaysLost :
    ∃ s t : State, runSteps 1 s = .next t ∧ (∀ p, Table.read s.wr p ≠ hidA20) ∧
      Table.read t.rd 0x92#16 = hidA20 :=
  ⟨{ s0 false 3#8 [0x0000000007700925#64] with wr := [] }, _, rfl, fun p => by simp [Table.read, Table.lookup], by decide⟩
theorem witness_SpanRegistersEveryPortOfIt :
    2 ≤ (2#32 : HID).toNat ∧ 1 ≤ 3 ∧ (0xFFFD#16).toNat + 3 - 1 ≤ 0xFFFF ∧ (0xFFFF#16).toNat + 1 - 1 ≤ 0xFFFF := by decide
theorem witness_Read8RunsOneReadCycle : (0x000FFFF1#64 &&& 0xFFFFFFFFFFF0000F#64 = 0x1#64) := by decide
theorem witness_Write8RunsOneWriteCycle : (0x0FFFFFF5#64 &&& 0xFFFFFFFFF000000F#64 = 0x5#64) := by decide
theorem witness_Read16RunsTwoReadCycles :
    (0x000FFFF2#64 &&& 0xFFFFFFFFFFF0000F#64 = 0x2#64) ∧ (0xFFFE#16).toNat ≤ 0xFFFE ∧ 0xFFFE < (0xFFFF#16).toNat := by decide
theorem witness_Read32RunsFourReadCycles :
    (0x000FFFF3#64 &&& 0xFFFFFFFFFFF0000F#64 = 0x3#64) ∧ (0xFFFC#16).toNat ≤ 0xFFFC ∧ 0xFFFC < (0xFFFD#16).toNat := by decide
theorem witness_Write16RunsTwoWriteCycles :
    (0x0000000BEEFFFFE6#64 &&& 0xFFFFFFF00000000F#64 = 0x6#64) ∧ (0xFFFE#16).toNat ≤ 0xFFFE ∧
      0xFFFE < (0xFFFF#16).toNat := by decide
theorem witness_Write32RunsFourWriteCycles :
    (0x000AABBCCDD10007#64 &&& 0xFFF000000000000F#64 = 0x7#64) ∧ (0xFFFC#16).toNat ≤ 0xFFFC ∧
      0xFFFC < (0xFFFD#16).toNat := by decide
theorem witness_StraddlingAccessIsRejectedWhole :
    straddles 0xFFFF#16 2 = true ∧ straddles 0xFFFE#16 2 = false ∧ straddles 0xFFFD#16 4 = true ∧
      straddles 0xFFFC#16 4 = false := by decide
theorem witness_EveryCycleCarriesTheStartingPort :
    ∃ t, exec (.read32 0xFFFC#16) p2 = .next t ∧ t.hist.length = 4 := ⟨_, rfl, by decide⟩
theorem witness_ReadsChangeNoBlockState :
    (Instr.read32 0x90#16).isRead = true ∧ ∃ t, exec (.read32 0x90#16) p2 = .next t := ⟨rfl, ⟨_, rfl⟩⟩
theorem witness_WritesChangeOnlyTheLatch :
    (Instr.write16 0x90#16 0xFFFF#16).isWrite = true ∧ (∃ t, exec (.write16 0x90#16 0xFFFF#16) p2 = .next t) ∧
    (∀ q : Port, (0x90#16).toNat ≤ q.toNat → q.toNat < (0x90#16).toNat + 2 →
      Table.read (State.construct true 0#8).wr q ≠ hidA20) := by
  refine ⟨rfl, ⟨_, rfl⟩, fun q h1 h2 => ?_⟩
  rw [State.construct_wr, Table.read_construct, if_neg (by rintro rfl; simp at h2)]
  decide
theorem witness_AccessAcrossStubAndA20 :
    Table.read (State.construct true 0#8).rd 0x91#16 = hidStub ∧ Table.read (State.construct true 0#8).rd 0x92#16 = hidA20 ∧
    Table.read (State.construct true 0#8).wr 0x91#16 = hidStub ∧ Table.read (State.construct true 0#8).wr 0x92#16 = hidA20 := by
  decide
theorem witness_WordReadSeesTheSameBytesAsByteReads :
    (0x91#16).toNat ≤ 0xFFFE ∧ (Table.read p2.rd 0x91#16).toNat < 2 ∧ (Table.read p2.rd (0x91#16 + 1)).toNat < 2 := by decide
theorem witness_StubHandlersReadFFAndDiscard :
    Table.read p2.rd 0#16 = hidStub ∧ Table.read p2.wr 0xFFFF#16 = hidStub ∧ Table.read p2.wr 0x80#16 = hidStub := by decide
theorem witness_A20HandlerReadsAndStoresTheLatch :
    Table.read p2.rd 0x92#16 = hidA20 ∧ Table.read p2.wr 0x92#16 = hidA20 ∧ Table.read p2.wr 0x91#16 = hidStub ∧
      Table.read p2.wr 0x93#16 = hidStub := by decide
theorem witness_StubHasNoMemory :
    Table.read p2.rd 0x93#16 = hidStub ∧ Table.read p2.wr 0x93#16 = hidStub ∧
      ∀ i ∈ [Instr.write32 0x90#16 1#32, .write8 0x93#16 7#8], i.isWrite = true := by decide
theorem witness_BuiltinReadsRepeat :
    ∃ t cs, execAll [.read8 0x92#16, .write8 0x60#16 1#8] p2 = .next t ∧ t.hist = p2.hist ++ cs ∧
      (∀ c ∈ cs, c.writesLatch = false) ∧ Table.read t.rd 0x92#16 = hidA20 ∧ Table.read t.rd 0x60#16 = hidStub :=
  ⟨_, [.rd 0x92#16 1#32 0x92#16 0#8, .wr 0x60#16 0#32 0x60#16 1#8], rfl, by decide, by decide, by decide, by decide⟩
theorem witness_A20WriteIsReadBack :
    Table.read p2.wr 0x92#16 = hidA20 ∧ Table.read p2.rd 0x92#16 = hidA20 := by decide
theorem witness_LatchAndDevicePortFollowTheHistory :
    ∃ t, runSteps 1 { p2 with commands := [⟨0x0000000123403F46#64, false⟩] } = .next t ∧ t.devPort.length = 2 :=
  ⟨_, rfl, by decide⟩
theorem witness_DeviceIsNotToldTheSlot :
    2 ≤ (Table.read p2.rd 0x3F4#16).toNat ∧ 2 ≤ (Table.read p2.wr 0x3F5#16).toNat ∧
    ∃ t : State, Table.read t.rd 0x3F5#16 = Table.read p2.rd 0x3F4#16 ∧ t.devPort = p2.devPort ∧ t.draws = p2.draws ∧
      t.hist ≠ p2.hist :=
  ⟨by decide, by decide, { p2 with rd := [(0x3F5, 2#32)], hist := [.rd 0x60#16 0#32 0x60#16 0xFF#8] }, by decide, rfl, rfl,
    by decide⟩
theorem witness_DiagnosticModeChangesNoEffect :
    (∃ t, runSteps 1 (s0 true 0#8 [0x0000000000010003#64]) = .next t ∧ t.hist.length = 4) ∧
    (∃ t, exec (.read8 0x92#16) p2 = .next t ∧ (∀ c ∈ t.hist, c.isDeviceRead = false) ∧
      ∀ r ∈ t.responses, statusField r = 0b00#2) :=
  ⟨⟨_, rfl, by decide⟩, ⟨_, rfl, by decide, by intro r hr; rw [List.mem_singleton.1 hr]; decide⟩⟩
theorem witness_DiagnosticModeOnlyReports :
    ∃ t, runSteps 1 (s0 true 0#8 [0x0000000000010003#64]) = .next t ∧ t.diagOut.length = 4 := ⟨_, rfl, by decide⟩
theorem witness_StepKeepsTheInvariant :
    Inv { State.construct true 0#8 with commands := [⟨0x0000000000000921#64, false⟩] } ∧
    ∃ t, step { State.construct true 0#8 with commands := [⟨0x0000000000000921#64, false⟩] } = .next t := by
  have hr : ∀ p, Table.read [(0x92, hidA20)] p = hidA20 → p = a20Port := by
    intro p
    rw [Table.read_construct]
    split_ifs with h <;> simp [h]
  exact ⟨⟨by decide, by decide, hr, hr, rfl, by decide, by simp, by simp⟩, ⟨_, rfl⟩⟩

end Sys2Proof.Tests
end

section
/-! SUPPORT. Proofs of the statements of 10_state.md: first what a step and a run do to the state, then the obligations. -/

namespace Sys2Proof.Machine

/-! ### Runs -/

/-- The induction over a run with the step taken apart: `P` holds along every run when it is reflexive and transitive and
holds of taking a command, of a refusal and of everything a performed command can have done. -/
theorem runSteps_did_induction (P : State → State → Prop) (refl : ∀ s, P s s) (trans : ∀ s t u, P s t → P t u → P s u)
    (take : ∀ s rest, P s { s with commands := rest }) (refuse : ∀ s r, P s (State.refuse s r))
    (did : ∀ i s t, Did i s t → P s t) {k : Nat} {s t : State} (h : runSteps k s = .next t) : P s t := by
  refine runSteps_induction P refl trans (fun s t hs => ?_) k s t h
  rcases step_inversion hs with rfl | ⟨rest, r, rfl⟩ | ⟨rest, i, he⟩
  · exact refl _
  · exact trans _ _ _ (take s rest) (refuse _ r)
  · exact trans _ _ _ (take s rest) (did i _ t (did_of_exec he))

/-! ### The A20 capability (R34) -/

/-- An array that only gained external handlers holds the A20 handler only where it held it before. -/
theorem Table.extends_a20 {a b : Table} (h : Table.extends a b) (p : Port) (hb : Table.read b p = hidA20) :
    Table.read a p = hidA20 := by
  rcases h p with e | e
  · rw [← e, hb]
  · exact absurd hb (externalHid_ne_a20 _ e)

/-- From `s` to `t` the lost write capability stays lost, and the latch keeps its value without it (R34). -/
def LatchFrozen (s t : State) : Prop :=
  (∀ p, Table.read s.wr p ≠ hidA20) → (∀ p, Table.read t.wr p ≠ hidA20) ∧ t.a20 = s.a20

theorem did_latchFrozen {i : Instr} {s t : State} (h : Did i s t) : LatchFrozen s t := fun hw =>
  ⟨fun p ht => hw p (Table.extends_a20 (did_extends h).2 p ht), did_a20 h hw⟩

theorem runSteps_latchFrozen {k : Nat} {s t : State} (h : runSteps k s = .next t) : LatchFrozen s t := by
  refine runSteps_did_induction LatchFrozen (fun s hw => ⟨hw, rfl⟩) (fun s t u hst htu hw => ?_)
    (fun s rest hw => ⟨hw, rfl⟩) (fun s r hw => ⟨hw, rfl⟩) (fun i s t => did_latchFrozen) h
  obtain ⟨ht, ea⟩ := hst hw
  obtain ⟨hu, eb⟩ := htu ht
  exact ⟨hu, eb.trans ea⟩

/-- Settles O25: the arrays only gain external handlers, and the latch is frozen once no write entry reaches it. -/
theorem a20CapabilityOnceLostStaysLost : Obligations.A20CapabilityOnceLostStaysLost := by
  intro k s t h
  obtain ⟨hrd, hwr⟩ := runSteps_extends k s t h
  refine ⟨Table.extends_a20 hrd, Table.extends_a20 hwr, fun hw => ?_⟩
  have ha : t.a20 = s.a20 := (runSteps_latchFrozen h hw).2
  exact ⟨ha, ha⟩

/-! ### History and refusal mark (R32) -/

/-- The bookkeeping of `s` is an initial part of that of `t` (R32). -/
def Grows (s t : State) : Prop := s.hist <+: t.hist ∧ s.refusals <+: t.refusals

theorem did_grows {i : Instr} {s t : State} (h : Did i s t) : Grows s t := by
  cases h with
  | serviced cs d h => exact ⟨⟨cs, h.ran.hist.symm⟩, h.ran.refusals ▸ List.prefix_rfl⟩
  | rejected r d h => exact ⟨h.hist ▸ List.prefix_rfl, h.refusals ▸ List.prefix_rfl⟩
  | bound p h _ hi => rcases hi with ⟨_, rfl⟩ | ⟨_, rfl⟩ <;> exact ⟨List.prefix_rfl, List.prefix_rfl⟩
  | refused h => subst h; exact ⟨List.prefix_rfl, List.prefix_append _ _⟩

theorem runSteps_grows {k : Nat} {s t : State} (h : runSteps k s = .next t) : Grows s t :=
  runSteps_did_induction Grows (fun _ => ⟨List.prefix_rfl, List.prefix_rfl⟩)
    (fun _ _ _ hst htu => ⟨hst.1.trans htu.1, hst.2.trans htu.2⟩)
    (fun _ _ => ⟨List.prefix_rfl, List.prefix_rfl⟩) (fun _ _ => ⟨List.prefix_rfl, List.prefix_append _ _⟩)
    (fun _ _ _ => did_grows) h

theorem Grows.refusalMark {s t : State} (h : Grows s t) (hm : s.refusalMark = true) : t.refusalMark = true :=
  (State.refusalMark_iff t).2 (h.2.ne_nil ((State.refusalMark_iff s).1 hm))

@[simp] theorem State.refuse_refusalMark (s : State) (r : RefuseReason) : (s.refuse r).refusalMark = true := by
  simp [State.refusalMark_iff]

/-- A step that takes a refused command refuses it (R66, R121). -/
theorem step_refused {s : State} {c : Command} {rest : List Command} {r : RefuseReason} (hc : s.commands = c :: rest)
    (ha : c.accept = .refused r) : step s = .next (State.refuse { s with commands := rest } r) := by
  simp [step, State.take_cons s c rest hc, ha]

/-- Settles O15: every command's effect only appends to the history and the refusals, and a refusal appends its reason. -/
theorem historyGrowsAndRefusalMarkStays : Obligations.HistoryGrowsAndRefusalMarkStays := by
  refine ⟨fun k s t h => ?_, fun s c rest r hc ha => ⟨_, step_refused hc ha, State.refuse_refusalMark _ _⟩⟩
  have hg : Grows s t := runSteps_grows h
  exact ⟨hg.1, hg.2, hg.refusalMark⟩

/-! ### Independence of the handler entries (R24) -/

/-- Binding an external handler leaves every other entry of the array alone (R24). -/
theorem Table.read_write_of_ne (t : Table) {p q : Port} {h : HID} (he : externalHid h = true) (hq : q ≠ p) :
    Table.read (Table.write t p h) q = Table.read t q := by
  rw [Table.read_write t p q h (externalHid_ne_stub h he), if_neg hq]

/-- REG_READ binds its entry or, for a built-in handler, is refused (R80, R84). -/
theorem exec_regRead_eq (p : Port) (h : HID) (s : State) : exec (.regRead p h) s =
    .next (if externalHid h then (s.bindRead p h).respond .ok 0#32 else s.refuse .builtinHandlerId) := by
  simp only [exec, execRegRead]; split_ifs <;> rfl

/-- REG_WRITE binds its entry or, for a built-in handler, is refused (R81, R84). -/
theorem exec_regWrite_eq (p : Port) (h : HID) (s : State) : exec (.regWrite p h) s =
    .next (if externalHid h then (s.bindWrite p h).respond .ok 0#32 else s.refuse .builtinHandlerId) := by
  simp only [exec, execRegWrite]; split_ifs <;> rfl

/-- Settles O20, from the read-after-write law of the arrays. -/
theorem handlerEntriesAreIndependent : Obligations.HandlerEntriesAreIndependent := by
  intro s t p h
  constructor <;> intro he
  · rw [exec_regRead_eq] at he
    cases he
    split_ifs with hx
    · exact ⟨rfl, fun q hq => Table.read_write_of_ne s.rd hx hq⟩
    · exact ⟨rfl, fun _ _ => rfl⟩
  · rw [exec_regWrite_eq] at he
    cases he
    split_ifs with hx
    · exact ⟨rfl, fun q hq => Table.read_write_of_ne s.wr hx hq⟩
    · exact ⟨rfl, fun _ _ => rfl⟩

/-! ### The diagnostic mode (R26): what a run reports -/

/-- From `s` to `t` the mode is fixed, and the stub records put out are those of the cycles run (R26, R112). -/
def Reports (s t : State) : Prop :=
  t.diagEn = s.diagEn ∧ ∃ cs ds, t.hist = s.hist ++ cs ∧ t.diagOut = s.diagOut ++ ds ∧
    ds.filter DiagRec.isStub = stubRecords s.diagEn cs

/-- The record of a stub cycle is a `DiagStub` record. -/
theorem stubRecord_isStub {c : Cycle} {r : DiagRec} (h : c.stubRecord = some r) : r.isStub = true := by
  cases c <;> simp only [Cycle.stubRecord] at h <;> split_ifs at h <;> cases h <;> rfl

theorem stubRecords_filter (en : Bool) (cs : List Cycle) :
    (stubRecords en cs).filter DiagRec.isStub = stubRecords en cs := by
  refine List.filter_eq_self.2 fun r hr => ?_
  cases en with
  | false => simp [stubRecords] at hr
  | true =>
    obtain ⟨c, _, hc⟩ := List.mem_filterMap.1 hr
    exact stubRecord_isStub hc

/-- A state with the same mode, history and diagnostic output reports nothing. -/
theorem Reports.of_same {s t : State} (hen : t.diagEn = s.diagEn) (hh : t.hist = s.hist) (ho : t.diagOut = s.diagOut) :
    Reports s t :=
  ⟨hen, [], [], by simp [hh], by simp [ho], by simp [stubRecords]⟩

theorem Reports.trans {s t u : State} (h : Reports s t) (g : Reports t u) : Reports s u := by
  obtain ⟨hen, cs, ds, hh, ho, hf⟩ := h
  obtain ⟨gen, cs', ds', gh, go, gf⟩ := g
  refine ⟨gen.trans hen, cs ++ cs', ds ++ ds', by simp [gh, hh], by simp [go, ho], ?_⟩
  rw [List.filter_append, hf, gf, hen, stubRecords_append]

theorem did_reports {i : Instr} {s t : State} (h : Did i s t) : Reports s t := by
  cases h with
  | serviced cs d h => exact ⟨h.ran.diagEn, cs, _, h.ran.hist, h.ran.diagOut, stubRecords_filter _ _⟩
  | rejected r d h report => exact ⟨h.diagEn, [], [r], by simp [h.hist], h.diagOut, by simp [report, stubRecords]⟩
  | bound p h _ hi => rcases hi with ⟨_, rfl⟩ | ⟨_, rfl⟩ <;> exact .of_same rfl rfl rfl
  | refused h => subst h; exact .of_same rfl rfl rfl

theorem runSteps_reports {k : Nat} {s t : State} (h : runSteps k s = .next t) : Reports s t :=
  runSteps_did_induction Reports (fun _ => .of_same rfl rfl rfl) (fun _ _ _ => .trans) (fun _ _ => .of_same rfl rfl rfl)
    (fun _ _ => .of_same rfl rfl rfl) (fun _ _ _ => did_reports) h

/-! ### The diagnostic mode (R26): a command in either mode

The two runs of a command are compared by what their handlers must answer (`AnsweredAll`), never by equal draws. -/

@[simp] theorem statusField_responseWord (st : Status) (d : Data) : statusField (responseWord st d) = st.code :=
  BitVec.extractLsb'_append_eq_right

/-- A read that no device answered has its byte from the latch and the stub alone (R110, R113). -/
theorem answered_byte_unique {a : Byte} {port port' : List DevXfer} {slot arg : Port} {h : HID} {b b' : Byte}
    (hb : (Cycle.rd slot h arg b).answered a port) (hb' : (Cycle.rd slot h arg b').answered a port') (hh : ¬ 2 ≤ h.toNat) :
    b' = b := by
  obtain ⟨stub, a20, _⟩ := hb
  obtain ⟨stub', a20', _⟩ := hb'
  rcases hid_cases h with e | e | e
  · rw [stub e, stub' e]
  · rw [a20 e, a20' e]
  · exact absurd e hh

/-- Two answered runs of the same read cycles differ in the bytes of devices only. -/
theorem readRecords_withoutDeviceByte {a : Byte} {rd : Table} {arg : Port} {ss : List Port} {bs bs' : List Byte}
    {port port' : List DevXfer} (hl : bs.length = ss.length) (hl' : bs'.length = ss.length)
    (h : AnsweredAll a port (readRecords rd arg ss bs)) (h' : AnsweredAll a port' (readRecords rd arg ss bs')) :
    (readRecords rd arg ss bs').map Cycle.withoutDeviceByte = (readRecords rd arg ss bs).map Cycle.withoutDeviceByte ∧
      ((∀ c ∈ readRecords rd arg ss bs, c.isDeviceRead = false) → bs' = bs) := by
  induction ss generalizing bs bs' port port' with
  | nil =>
    obtain rfl := List.length_eq_zero_iff.1 hl
    obtain rfl := List.length_eq_zero_iff.1 hl'
    exact ⟨rfl, fun _ => rfl⟩
  | cons x ss ih =>
    obtain ⟨b, bs, rfl⟩ := List.exists_cons_of_length_eq_add_one hl
    obtain ⟨b', bs', rfl⟩ := List.exists_cons_of_length_eq_add_one hl'
    obtain ⟨hb, h⟩ := (answeredAll_cons _ _ _ _).1 h
    obtain ⟨hb', h'⟩ := (answeredAll_cons _ _ _ _).1 h'
    obtain ⟨hmap, hbytes⟩ := ih (by simpa using hl) (by simpa using hl') h h'
    have hbyte := answered_byte_unique hb hb'
    refine ⟨?_, fun hd => ?_⟩
    · refine congrArg₂ List.cons ?_ hmap
      by_cases hx : 2 ≤ (Table.read rd x).toNat
      · simp [Cycle.withoutDeviceByte, hx]
      · simp [hbyte hx]
    · obtain ⟨hx, hd⟩ := List.forall_mem_cons.1 hd
      rw [hbytes hd, hbyte (by simpa [Cycle.isDeviceRead] using hx)]

/-- After a command that took `s` to `t`, and the state with the other mode to `u`: the same effect, cycles and statuses, up to
what devices answered and what rejected reads returned (R26). -/
def ModesAgree (s t u : State) : Prop :=
  u.rd = t.rd ∧ u.wr = t.wr ∧ u.a20 = t.a20 ∧ u.refusals = t.refusals ∧ u.commands = t.commands ∧
  ∃ cs ds rs qs, t.hist = s.hist ++ cs ∧ u.hist = s.hist ++ ds ∧
    ds.map Cycle.withoutDeviceByte = cs.map Cycle.withoutDeviceByte ∧
    t.responses = s.responses ++ rs ∧ u.responses = s.responses ++ qs ∧ qs.map statusField = rs.map statusField ∧
    ((∀ c ∈ cs, c.isDeviceRead = false) → (∀ r ∈ rs, statusField r = 0b00#2) → qs = rs)

theorem Serviced.modesAgree {s t u : State} {en : Bool} {cs ds : List Cycle} {d e : Data} (h : Serviced s t cs d)
    (g : Serviced { s with diagEn := en } u ds e) (latch : latchAfter s.a20 ds = latchAfter s.a20 cs)
    (cycles : ds.map Cycle.withoutDeviceByte = cs.map Cycle.withoutDeviceByte)
    (data : (∀ c ∈ cs, c.isDeviceRead = false) → e = d) : ModesAgree s t u := by
  obtain ⟨h, hresp⟩ := h
  obtain ⟨g, gresp⟩ := g
  refine ⟨g.rd.trans h.rd.symm, g.wr.trans h.wr.symm, ?_, g.refusals.trans h.refusals.symm, g.commands.trans h.commands.symm,
    cs, ds, _, _, h.hist, g.hist, cycles, hresp, gresp, by simp, fun hd _ => by rw [data hd]⟩
  rw [g.a20, h.a20, latch]

theorem Rejected.modesAgree {s t u : State} {en : Bool} {r : DiagRec} {d e : Data} (h : Rejected s t r d)
    (g : Rejected { s with diagEn := en } u r e) : ModesAgree s t u :=
  ⟨g.rd.trans h.rd.symm, g.wr.trans h.wr.symm, g.a20.trans h.a20.symm, g.refusals.trans h.refusals.symm,
    g.commands.trans h.commands.symm, [], [], _, _, by simp [h.hist], by simp [g.hist], rfl, h.responses, g.responses, by simp,
    fun _ hok => by simp [Status.code] at hok⟩

/-- A command that runs no cycle and answers nothing from a device changes the other mode's state just as this one's. -/
theorem ModesAgree.of_setMode {s t : State} {en : Bool} {rs : List Word64} (hh : t.hist = s.hist)
    (hr : t.responses = s.responses ++ rs) : ModesAgree s t { t with diagEn := en } :=
  ⟨rfl, rfl, rfl, rfl, rfl, [], [], rs, rs, by simp [hh], by simp [hh], rfl, hr, hr, rfl, fun _ _ => rfl⟩

theorem serviceRead_modesAgree (width : Width) (p : Port) (s : State) (en : Bool) :
    ModesAgree s (serviceRead width p s) (serviceRead width p { s with diagEn := en }) := by
  obtain ⟨cycles, bytes⟩ := readRecords_withoutDeviceByte (readCycles_length p _ s)
    (readCycles_length p _ { s with diagEn := en }) (readCycles_answered p (slots p width.bytes) s)
    (readCycles_answered p (slots p width.bytes) { s with diagEn := en })
  refine (serviceRead_serviced width p s).modesAgree (serviceRead_serviced width p { s with diagEn := en }) ?_ cycles
    fun hd => congrArg assemble (bytes hd)
  simp only [readTrace, latchAfter_readRecords]

theorem readAccess_modesAgree (width : Width) (p : Port) (s : State) (en : Bool) :
    ∃ t u, readAccess width p s = .next t ∧ readAccess width p { s with diagEn := en } = .next u ∧ ModesAgree s t u := by
  refine ⟨_, _, readAccess_eq width p s, readAccess_eq width p _, ?_⟩
  split_ifs
  · exact (rejectRead_rejected width p s).modesAgree (rejectRead_rejected width p _)
  · exact serviceRead_modesAgree width p s en

/-- The cycles of a write, and so its effect, are fixed by the write array and the value. -/
theorem writeAccess_modesAgree (width : Width) (p : Port) (v : Data) (s : State) (en : Bool) :
    ∃ t u, writeAccess width p v s = .next t ∧ writeAccess width p v { s with diagEn := en } = .next u ∧
      ModesAgree s t u := by
  refine ⟨_, _, writeAccess_eq width p v s, writeAccess_eq width p v _, ?_⟩
  split_ifs
  · exact (rejectWrite_rejected width p v s).modesAgree (rejectWrite_rejected width p v _)
  · exact (serviceWrite_serviced width p v s).modesAgree (serviceWrite_serviced width p v { s with diagEn := en })
      rfl rfl fun _ => rfl

theorem exec_modesAgree (i : Instr) (s : State) (en : Bool) :
    ∃ t u, exec i s = .next t ∧ exec i { s with diagEn := en } = .next u ∧ ModesAgree s t u := by
  cases i with
  | read8 p => exact readAccess_modesAgree .w8 p s en
  | read16 p => exact readAccess_modesAgree .w16 p s en
  | read32 p => exact readAccess_modesAgree .w32 p s en
  | write8 p v => exact writeAccess_modesAgree .w8 p _ s en
  | write16 p v => exact writeAccess_modesAgree .w16 p _ s en
  | write32 p v => exact writeAccess_modesAgree .w32 p v s en
  | regRead p h =>
    refine ⟨_, _, exec_regRead_eq p h s, exec_regRead_eq p h _, ?_⟩
    split_ifs
    · exact .of_setMode (rs := [responseWord .ok 0#32]) rfl rfl
    · exact .of_setMode (rs := []) rfl (by simp)
  | regWrite p h =>
    refine ⟨_, _, exec_regWrite_eq p h s, exec_regWrite_eq p h _, ?_⟩
    split_ifs
    · exact .of_setMode (rs := [responseWord .ok 0#32]) rfl rfl
    · exact .of_setMode (rs := []) rfl (by simp)

/-- Settles O49, from what every run reports and the comparison of one command in the two modes. -/
theorem diagnosticModeChangesNoEffect : Obligations.DiagnosticModeChangesNoEffect :=
  ⟨State.construct_diagEn, fun _ _ _ => runSteps_reports, exec_modesAgree⟩

/-! ### Construction (R29, R140) -/

/-- Settles O17: the arrays by the law of the construction binding, every other field as constructed. -/
theorem constructionValues : Obligations.ConstructionValues := by
  refine ⟨fun d a p => ?_, fun d a => ?_, rfl⟩
  · rw [State.construct_rd, State.construct_wr]
    exact ⟨Table.read_construct p, Table.read_construct p⟩
  · simp [State.refusalMark]

end Sys2Proof.Machine
end

section
/-! SUPPORT. Proofs of the statements of 30_encoding.md: first what the decoder answers, field by field and by the rows of R76.
Each obligation follows the lemmas it needs. -/

namespace Sys2Proof

/-! ### The decoder's checks (R66) on the fields as numbers, one equation a check -/

theorem payloadAbove8_toNat_eq_div (w : Word64) : (payloadAbove8 w).toNat = (payloadField w).toNat / 2 ^ 8 := by
  rw [payloadAbove8_toNat, payloadField_toNat]

theorem payloadAbove16_toNat_eq_div (w : Word64) : (payloadAbove16 w).toNat = (payloadField w).toNat / 2 ^ 16 := by
  rw [payloadAbove16_toNat, payloadField_toNat]

theorem unusedZero_toNat {n : Nat} (x : BitVec n) (i : Instr) : unusedZero (x = 0#n) i =
    if x.toNat = 0 then .command i else .refused .nonzeroUnusedPayload := by
  simp [unusedZero, ← BitVec.toNat_inj]

theorem externalOnly_toNat (h : HID) (i : Instr) : externalOnly h i =
    if 2 ≤ h.toNat then .command i else .refused .builtinHandlerId := by
  simp [externalOnly, externalHid]

section Checks
variable {w : Word64}

theorem decode_of_rsv_ne (hr : (rsvField w).toNat ≠ 0) : decode w = .refused .reservedBitsSet :=
  if_pos fun h => hr (congrArg BitVec.toNat h)

/-- The codes of no command are 0, 4 and 10 to 15 (R61). -/
theorem decode_of_reserved_cmd (hr : (rsvField w).toNat = 0)
    (hc : (cmdField w).toNat = 0 ∨ (cmdField w).toNat = 4 ∨ 10 ≤ (cmdField w).toNat) :
    decode w = .refused .reservedCommand := by
  simp only [decode, ← BitVec.toNat_inj, ne_eq, BitVec.toNat_ofNat]
  grind

theorem decode_read8 (hr : (rsvField w).toNat = 0) (hc : (cmdField w).toNat = 1) : decode w =
    if (payloadField w).toNat = 0 then .command (.read8 (portField w)) else .refused .nonzeroUnusedPayload := by
  rw [← unusedZero_toNat]; simp [decode, ← BitVec.toNat_inj, hr, hc]

theorem decode_read16 (hr : (rsvField w).toNat = 0) (hc : (cmdField w).toNat = 2) : decode w =
    if (payloadField w).toNat = 0 then .command (.read16 (portField w)) else .refused .nonzeroUnusedPayload := by
  rw [← unusedZero_toNat]; simp [decode, ← BitVec.toNat_inj, hr, hc]

theorem decode_read32 (hr : (rsvField w).toNat = 0) (hc : (cmdField w).toNat = 3) : decode w =
    if (payloadField w).toNat = 0 then .command (.read32 (portField w)) else .refused .nonzeroUnusedPayload := by
  rw [← unusedZero_toNat]; simp [decode, ← BitVec.toNat_inj, hr, hc]

theorem decode_write8 (hr : (rsvField w).toNat = 0) (hc : (cmdField w).toNat = 5) : decode w =
    if (payloadField w).toNat / 2 ^ 8 = 0 then .command (.write8 (portField w) ((payloadField w).setWidth 8))
    else .refused .nonzeroUnusedPayload := by
  rw [← payloadAbove8_toNat_eq_div, ← unusedZero_toNat]; simp [decode, ← BitVec.toNat_inj, hr, hc]

theorem decode_write16 (hr : (rsvField w).toNat = 0) (hc : (cmdField w).toNat = 6) : decode w =
    if (payloadField w).toNat / 2 ^ 16 = 0 then .command (.write16 (portField w) ((payloadField w).setWidth 16))
    else .refused .nonzeroUnusedPayload := by
  rw [← payloadAbove16_toNat_eq_div, ← unusedZero_toNat]; simp [decode, ← BitVec.toNat_inj, hr, hc]

theorem decode_write32 (hr : (rsvField w).toNat = 0) (hc : (cmdField w).toNat = 7) :
    decode w = .command (.write32 (portField w) (payloadField w)) := by
  simp [decode, ← BitVec.toNat_inj, hr, hc]

theorem decode_regRead (hr : (rsvField w).toNat = 0) (hc : (cmdField w).toNat = 8) : decode w =
    if 2 ≤ (payloadField w).toNat then .command (.regRead (portField w) (payloadField w))
    else .refused .builtinHandlerId := by
  rw [← externalOnly_toNat]; simp [decode, ← BitVec.toNat_inj, hr, hc]

theorem decode_regWrite (hr : (rsvField w).toNat = 0) (hc : (cmdField w).toNat = 9) : decode w =
    if 2 ≤ (payloadField w).toNat then .command (.regWrite (portField w) (payloadField w))
    else .refused .builtinHandlerId := by
  rw [← externalOnly_toNat]; simp [decode, ← BitVec.toNat_inj, hr, hc]

end Checks

/-! ### The payload bits a write uses -/

theorem setWidth8_payloadField (w : Word64) : (payloadField w).setWidth 8 = w.extractLsb' 20 8 := by
  ext i hi
  simp [payloadField]
  omega

theorem setWidth16_payloadField (w : Word64) : (payloadField w).setWidth 16 = w.extractLsb' 20 16 := by
  ext i hi
  simp [payloadField]
  omega

theorem payloadAbove8_eq_zero_iff (w : Word64) :
    payloadAbove8 w = 0#24 ↔ ((payloadField w).setWidth 8).setWidth 32 = payloadField w := by
  simp only [← BitVec.toNat_inj, payloadAbove8_toNat, BitVec.toNat_setWidth, payloadField_toNat, BitVec.toNat_ofNat]
  omega

theorem payloadAbove16_eq_zero_iff (w : Word64) :
    payloadAbove16 w = 0#16 ↔ ((payloadField w).setWidth 16).setWidth 32 = payloadField w := by
  simp only [← BitVec.toNat_inj, payloadAbove16_toNat, BitVec.toNat_setWidth, payloadField_toNat, BitVec.toNat_ofNat]
  omega

/-! ### Decoding by fields -/

/-- A word decodes to a command exactly when the command is well formed and the fields of the word are its own (R60, R66). -/
theorem decode_eq_command_iff (w : Word64) (i : Instr) : decode w = .command i ↔
    i.wf = true ∧ rsvField w = 0#12 ∧ i.cmdCode = cmdField w ∧ i.port = portField w ∧ i.payload = payloadField w := by
  refine ⟨decode_command, fun ⟨hwf, hrsv, hcmd, hp, hv⟩ => ?_⟩
  have hr : (rsvField w).toNat = 0 := congrArg BitVec.toNat hrsv
  have hc : (cmdField w).toNat = i.cmdCode.toNat := congrArg BitVec.toNat hcmd.symm
  cases i with
  | read8 p => rw [decode_read8 hr hc, ← hp, ← hv]; rfl
  | read16 p => rw [decode_read16 hr hc, ← hp, ← hv]; rfl
  | read32 p => rw [decode_read32 hr hc, ← hp, ← hv]; rfl
  | write8 p v =>
    rw [decode_write8 hr hc, ← hp, ← hv]
    simp [Instr.port, Instr.payload]
    omega
  | write16 p v =>
    rw [decode_write16 hr hc, ← hp, ← hv]
    simp [Instr.port, Instr.payload]
    omega
  | write32 p v => rw [decode_write32 hr hc, ← hp, ← hv]; rfl
  | regRead p h => rw [decode_regRead hr hc, ← hp, ← hv]; exact if_pos (of_decide_eq_true hwf)
  | regWrite p h => rw [decode_regWrite hr hc, ← hp, ← hv]; exact if_pos (of_decide_eq_true hwf)

/-- A well-formed command decodes from its own word. -/
theorem decode_encode {i : Instr} (h : i.wf = true) : decode (encode i) = .command i := by
  obtain ⟨hc, hp, hv, hr⟩ := Laws.EncodeFields.of_formatC i
  exact (decode_eq_command_iff _ i).2 ⟨h, hr, hc.symm, hp.symm, hv.symm⟩

/-! ### The rows of R76 -/

/-- The payload bits that a word of the command must not set (R63). -/
def Instr.unusedPayload : Instr → Data
  | .read8 _ | .read16 _ | .read32 _ => 0xFFFFFFFF#32
  | .write8 _ _ => 0xFFFFFF00#32
  | .write16 _ _ => 0xFFFF0000#32
  | .write32 _ _ | .regRead _ _ | .regWrite _ _ => 0#32

/-- The place of the command's row in R76. -/
def Instr.rowIndex : Instr → Fin opcodeRows.length
  | .read8 _ => ⟨0, by decide⟩
  | .read16 _ => ⟨1, by decide⟩
  | .read32 _ => ⟨2, by decide⟩
  | .write8 _ _ => ⟨3, by decide⟩
  | .write16 _ _ => ⟨4, by decide⟩
  | .write32 _ _ => ⟨5, by decide⟩
  | .regRead _ _ => ⟨6, by decide⟩
  | .regWrite _ _ => ⟨7, by decide⟩

/-- The row of R76 that a command's words select. -/
def Instr.row (i : Instr) : OpcodeRow := opcodeRows.get i.rowIndex

theorem Instr.row_mem (i : Instr) : i.row ∈ opcodeRows := List.get_mem _ _

theorem Instr.cmdField_row (i : Instr) : cmdField i.row.bits = i.cmdCode := by cases i <;> rfl

theorem Instr.payloadField_row (i : Instr) : payloadField i.row.mask = i.unusedPayload := by
  cases i with
  | read8 | read16 | read32 => exact (by decide : payloadField 0xFFFFFFFFFFF0000F#64 = 0xFFFFFFFF#32)
  | write8 => exact (by decide : payloadField 0xFFFFFFFFF000000F#64 = 0xFFFFFF00#32)
  | write16 => exact (by decide : payloadField 0xFFFFFFF00000000F#64 = 0xFFFF0000#32)
  | write32 | regRead | regWrite => exact (by decide : payloadField 0xFFF000000000000F#64 = 0#32)

/-- The eight commands that have their operands in the fields of the word, one a row. -/
def rowCommands (w : Word64) : List Instr :=
  [.read8 (portField w), .read16 (portField w), .read32 (portField w),
   .write8 (portField w) ((payloadField w).setWidth 8), .write16 (portField w) ((payloadField w).setWidth 16),
   .write32 (portField w) (payloadField w), .regRead (portField w) (payloadField w),
   .regWrite (portField w) (payloadField w)]

theorem opcodeRows_eq (w : Word64) : opcodeRows = (rowCommands w).map Instr.row := rfl

theorem decode_mem_rowCommands {w : Word64} {i : Instr} (h : decode w = .command i) : i ∈ rowCommands w := by
  obtain ⟨_, _, _, hp, hv⟩ := decode_command h
  simp only [rowCommands, ← hp, ← hv]
  cases i <;> simp [Instr.port, Instr.payload]

/-- Every row compares RSV with zero, no bit of PORT, and CMD with its code. -/
theorem opcodeRows_fields : ∀ r ∈ opcodeRows,
    (rsvField r.mask = BitVec.allOnes 12 ∧ portField r.mask = 0#16 ∧ cmdField r.mask = BitVec.allOnes 4) ∧
      rsvField r.bits = 0#12 ∧ payloadField r.bits = 0#32 ∧ portField r.bits = 0#16 := by decide

/-- A masked comparison with a row, as one of fields (R75). -/
theorem and_mask_eq_bits_iff (w : Word64) {r : OpcodeRow} (h : r ∈ opcodeRows) : w &&& r.mask = r.bits ↔
    rsvField w = 0#12 ∧ payloadField w &&& payloadField r.mask = 0#32 ∧ cmdField w = cmdField r.bits := by
  obtain ⟨⟨hr, hp, hc⟩, br, bv, bp⟩ := opcodeRows_fields r h
  rw [mask_iff, hr, hp, hc, br, bv, bp, BitVec.and_allOnes, BitVec.and_allOnes]
  simp

/-- The unused bits of the word's payload are zero exactly when the command has the word's payload (R63). -/
theorem and_unusedPayload_eq_zero_iff {w : Word64} {i : Instr} (hi : i ∈ rowCommands w) :
    payloadField w &&& i.unusedPayload = 0#32 ↔ i.payload = payloadField w := by
  have hread : payloadField w &&& 0xFFFFFFFF#32 = 0#32 ↔ 0#32 = payloadField w := by
    rw [show 0xFFFFFFFF#32 = BitVec.allOnes 32 from rfl, BitVec.and_allOnes, eq_comm]
  have hwrite8 := (payload_mask8_iff w).trans (payloadAbove8_eq_zero_iff w)
  have hwrite16 := (payload_mask16_iff w).trans (payloadAbove16_eq_zero_iff w)
  have hwhole : payloadField w &&& 0#32 = 0#32 ↔ payloadField w = payloadField w := by simp
  simp only [rowCommands, List.mem_cons, List.not_mem_nil, or_false] at hi
  rcases hi with rfl | rfl | rfl | rfl | rfl | rfl | rfl | rfl
  exacts [hread, hread, hread, hwrite8, hwrite16, hwhole, hwhole, hwhole]

theorem rowCommands_port {w : Word64} {i : Instr} (hi : i ∈ rowCommands w) : i.port = portField w := by
  simp only [rowCommands, List.mem_cons, List.not_mem_nil, or_false] at hi
  rcases hi with rfl | rfl | rfl | rfl | rfl | rfl | rfl | rfl <;> rfl

/-- A command is well formed when it is no registration or its payload is an external handler (R64). -/
theorem wf_iff_registration (i : Instr) : i.wf = true ↔ (!i.row.registration || externalHid i.payload) = true := by
  cases i <;> rfl

/-- A word selects the row of a command with its operands exactly when it decodes to that command (R75, R76). -/
theorem row_selects_iff {w : Word64} {i : Instr} (hi : i ∈ rowCommands w) :
    i.row.selects w = true ↔ decode w = .command i := by
  rw [OpcodeRow.selects, Bool.and_eq_true, beq_iff_eq, and_mask_eq_bits_iff w i.row_mem,
    i.payloadField_row, and_unusedPayload_eq_zero_iff hi, i.cmdField_row, decode_eq_command_iff, wf_iff_registration]
  constructor
  · rintro ⟨⟨hr, hv, hc⟩, hreg⟩
    exact ⟨hv ▸ hreg, hr, hc.symm, rowCommands_port hi, hv⟩
  · rintro ⟨hreg, hr, hc, -, hv⟩
    exact ⟨⟨hr, hv, hc.symm⟩, hv ▸ hreg⟩

theorem no_row_selects_iff (w : Word64) :
    (∀ r ∈ opcodeRows, r.selects w = false) ↔ ∃ e, decode w = .refused e := by
  have hrows : (∀ r ∈ opcodeRows, r.selects w = false) ↔ ∀ i ∈ rowCommands w, decode w ≠ .command i := by
    rw [opcodeRows_eq w, List.forall_mem_map]
    refine forall₂_congr fun i hi => ?_
    rw [ne_eq, ← row_selects_iff hi, Bool.not_eq_true]
  rw [hrows]
  cases h : decode w with
  | refused e => simp
  | command i => simpa using decode_mem_rowCommands h

theorem selects_registration_iff (b m : Word64) (w : Word64) :
    (OpcodeRow.mk b m true).selects w = true ↔ w &&& m = b ∧ 2 ≤ (payloadField w).toNat := by
  simp [OpcodeRow.selects, externalHid]

theorem selects_access_iff (b m : Word64) (w : Word64) :
    (OpcodeRow.mk b m false).selects w = true ↔ w &&& m = b := by
  simp [OpcodeRow.selects]

/-- Settles O4: each row by the fields it compares, and the commands with their operands in the word's fields are all that it
can decode to. -/
theorem wordSelectsRowExactlyByMask : Obligations.WordSelectsRowExactlyByMask := by
  rintro w _ _ rfl rfl
  have hrow := @row_selects_iff w
  simp only [rowCommands, List.forall_mem_cons] at hrow
  obtain ⟨h1, h2, h3, h5, h6, h7, h8, h9, -⟩ := hrow
  rw [← setWidth8_payloadField, ← setWidth16_payloadField]
  refine ⟨?_, ?_, ?_, ?_, ?_, ?_, ?_, ?_, no_row_selects_iff w⟩
  · exact (selects_access_iff _ _ w).symm.trans h1
  · exact (selects_access_iff _ _ w).symm.trans h2
  · exact (selects_access_iff _ _ w).symm.trans h3
  · exact (selects_access_iff _ _ w).symm.trans h5
  · exact (selects_access_iff _ _ w).symm.trans h6
  · exact (selects_access_iff _ _ w).symm.trans h7
  · exact (selects_registration_iff _ _ w).symm.trans h8
  · exact (selects_registration_iff _ _ w).symm.trans h9

/-- Settles O5: the words by evaluation, their decoding by the round trip. -/
theorem workedEncodings : Obligations.WorkedEncodings := by
  have h1 : encode (.write8 0x92#16 0x02#8) = 0x0000000000200925#64 := by decide
  have h2 : encode (.read8 0x92#16) = 0x0000000000000921#64 := by decide
  have h3 : encode (.write16 0x3F4#16 0x1234#16) = 0x0000000123403F46#64 := by decide
  have h4 : encode (.read32 0xFFFC#16) = 0x00000000000FFFC3#64 := by decide
  refine ⟨h1, h2, h3, h4, ?_, ?_, ?_, ?_⟩
  · exact h1 ▸ decode_encode rfl
  · exact h2 ▸ decode_encode rfl
  · exact h3 ▸ decode_encode rfl
  · exact h4 ▸ decode_encode rfl

end Sys2Proof

namespace Sys2Proof.Machine

theorem accept_of_decode_refused {c : Command} {r : RefuseReason} (h : decode c.word = .refused r) :
    c.accept = .refused r := by
  simp [Command.accept, h]

/-- Settles O3: each check by its equation of the decoder, and the refusal by what a step does with a refused command. -/
theorem decodeRefusesAtFirstFailingCheck : Obligations.DecodeRefusesAtFirstFailingCheck := by
  constructor
  · rintro w rsv cmd payload p hr hc hv hp
    rw [← rsvField_toNat] at hr
    rw [← cmdField_toNat] at hc
    rw [← payloadField_toNat] at hv
    obtain rfl : p = portField w := BitVec.eq_of_toNat_eq (hp.trans (portField_toNat w).symm)
    subst hr hc hv
    rw [BitVec.ofNat_toNat, BitVec.ofNat_toNat, BitVec.ofNat_toNat, BitVec.setWidth_eq]
    refine ⟨decode_of_rsv_ne, decode_of_reserved_cmd, ?readPayload, ?write8Payload, ?write16Payload, ?builtinId,
      ?read8, ?read16, ?read32, ?write8, ?write16, decode_write32, ?regRead, ?regWrite⟩
    case readPayload =>
      rintro hr (hc | hc | hc) hv
      · exact (decode_read8 hr hc).trans (if_neg hv)
      · exact (decode_read16 hr hc).trans (if_neg hv)
      · exact (decode_read32 hr hc).trans (if_neg hv)
    case write8Payload => exact fun hr hc hv => (decode_write8 hr hc).trans (if_neg hv)
    case write16Payload => exact fun hr hc hv => (decode_write16 hr hc).trans (if_neg hv)
    case builtinId =>
      rintro hr (hc | hc) hv
      · exact (decode_regRead hr hc).trans (if_neg (Nat.not_le.2 hv))
      · exact (decode_regWrite hr hc).trans (if_neg (Nat.not_le.2 hv))
    case read8 => exact fun hr hc hv => (decode_read8 hr hc).trans (if_pos hv)
    case read16 => exact fun hr hc hv => (decode_read16 hr hc).trans (if_pos hv)
    case read32 => exact fun hr hc hv => (decode_read32 hr hc).trans (if_pos hv)
    case write8 => exact fun hr hc hv => (decode_write8 hr hc).trans (if_pos hv)
    case write16 => exact fun hr hc hv => (decode_write16 hr hc).trans (if_pos hv)
    case regRead => exact fun hr hc hv => (decode_regRead hr hc).trans (if_pos hv)
    case regWrite => exact fun hr hc hv => (decode_regWrite hr hc).trans (if_pos hv)
  · intro s c rest r hc hd
    exact ⟨step_refused hc (accept_of_decode_refused hd), State.refuse_refusalMark _ _⟩

/-! ### The pseudo-instructions (R71) -/

theorem spanPorts_eq_slots (p : Port) (n : Nat) : spanPorts p n = slots p n := rfl

theorem spanFits_iff (p : Port) (n : Nat) : spanFits p n = true ↔ 1 ≤ n ∧ p.toNat + n - 1 ≤ 0xFFFF := by
  simp [spanFits]

theorem slots_getElem? (p : Port) {n k : Nat} (hk : k < n) : (slots p n)[k]? = some (slotAt p k) := by
  simp [slots, hk]

/-- Settles O9: a span that fits has the ports `slotAt p k`, which do not wrap. -/
theorem pseudoInstructionsExpandInOrder : Obligations.PseudoInstructionsExpandInOrder := by
  refine ⟨fun p n h hfit => ?_, fun p n h hfit => ?_, fun p hr hw => rfl⟩
  · have hf : spanFits p n = true := (spanFits_iff p n).2 hfit
    refine ⟨_, _, if_pos hf, if_pos hf, by simp [spanPorts], by simp [spanPorts], fun k hk => ⟨slotAt p k, ?_, ?_, ?_⟩⟩
    · exact slotAt_toNat p k (by omega)
    · rw [List.getElem?_map, spanPorts_eq_slots, slots_getElem? p hk, Option.map_some]
    · rw [List.getElem?_map, spanPorts_eq_slots, slots_getElem? p hk, Option.map_some]
  · have hf : ¬ spanFits p n = true := mt (spanFits_iff p n).1 hfit
    exact ⟨if_neg hf, if_neg hf⟩

end Sys2Proof.Machine
end

section
/-! SUPPORT. Proofs of the statements of 40_registration.md: first what a registration and a byte access do, then the
obligations. -/

namespace Sys2Proof

theorem externalHid_iff (h : HID) : externalHid h = true ↔ 2 ≤ h.toNat := decide_eq_true_iff

/-- The two built-in handlers are the ones that may not be registered (R21, R64). -/
theorem externalHid_eq_false_iff (h : HID) : externalHid h = false ↔ h = hidStub ∨ h = hidA20 := by
  constructor
  · intro hx
    rcases Machine.hid_cases h with h0 | h1 | h2
    · exact .inl h0
    · exact .inr h1
    · exact absurd ((externalHid_iff h).2 h2) (by simp [hx])
  · rintro (rfl | rfl) <;> rfl

/-- A word of the REG_READ row (R76) with an external handler for its payload. -/
theorem decode_of_regRead_mask {w : Word64} (hm : w &&& 0xFFF000000000000F#64 = 0x8#64)
    (hv : 2 ≤ (payloadField w).toNat) : decode w = .command (.regRead (portField w) (payloadField w)) :=
  (row_selects_iff (by simp [rowCommands])).1 ((selects_registration_iff _ _ w).2 ⟨hm, hv⟩)

/-- A word of the REG_WRITE row (R76) with an external handler for its payload. -/
theorem decode_of_regWrite_mask {w : Word64} (hm : w &&& 0xFFF000000000000F#64 = 0x9#64)
    (hv : 2 ≤ (payloadField w).toNat) : decode w = .command (.regWrite (portField w) (payloadField w)) :=
  (row_selects_iff (by simp [rowCommands])).1 ((selects_registration_iff _ _ w).2 ⟨hm, hv⟩)

end Sys2Proof

namespace Sys2Proof.Machine

/-! ### What a registration does to the arrays -/

theorem exec_regRead_external (p : Port) {h : HID} (hx : externalHid h = true) (s : State) :
    exec (.regRead p h) s = .next ((s.bindRead p h).respond .ok 0#32) := by
  rw [exec_regRead_eq, if_pos hx]

theorem exec_regWrite_external (p : Port) {h : HID} (hx : externalHid h = true) (s : State) :
    exec (.regWrite p h) s = .next ((s.bindWrite p h).respond .ok 0#32) := by
  rw [exec_regWrite_eq, if_pos hx]

/-- Read after registration, at the registered port and at every other. -/
theorem Table.read_write_external (t : Table) (p q : Port) {h : HID} (hx : externalHid h = true) :
    Table.read (Table.write t p h) q = if q = p then h else Table.read t q :=
  Table.read_write t p q h (externalHid_ne_stub h hx)

/-- An external handler at the one port that may hold the A20 handler leaves no entry that holds it (R34). -/
theorem Table.write_ne_a20 {t : Table} {p : Port} {h : HID} (hx : externalHid h = true)
    (ht : ∀ q, q ≠ p → Table.read t q ≠ hidA20) (q : Port) : Table.read (Table.write t p h) q ≠ hidA20 := by
  rw [Table.read_write_external t p q hx]
  split_ifs with hq
  · exact externalHid_ne_a20 h hx
  · exact ht q hq

/-- An array that only gained external handlers holds a built-in handler only where it held it before (R84). -/
theorem Table.extends_builtin {a b : Table} (h : Table.extends a b) {p : Port} {g : HID} (hg : externalHid g = false)
    (hb : Table.read b p = g) : Table.read a p = g := by
  rcases h p with e | e
  · rw [← e, hb]
  · rw [hb, hg] at e
    cases e

/-! ### Byte accesses, which never straddle (R98) -/

/-- READ8 runs one read cycle and answers its byte (R92). -/
theorem exec_read8_serviced (p : Port) (s : State) : ∃ t, exec (.read8 p) s = .next t ∧
    Serviced s t [.rd p (Table.read s.rd p) p (readCycle p p s).1] ((readCycle p p s).1.setWidth 32) := by
  have hcycles : (readCycles p (slots p Width.w8.bytes) s).1 = [(readCycle p p s).1] := by
    rw [Width.bytes, slots_one]; rfl
  have hserviced := serviceRead_serviced .w8 p s
  rw [readTrace, hcycles, assemble_one, Width.bytes, slots_one] at hserviced
  exact ⟨_, readAccess_eq .w8 p s, by simpa [Width.bytes, readRecords] using hserviced⟩

/-- WRITE8 runs one write cycle (R93). -/
theorem exec_write8_serviced (p : Port) (b : Byte) (s : State) : ∃ t, exec (.write8 p b) s = .next t ∧
    Serviced s t [.wr p (Table.read s.wr p) p b] 0#32 := by
  have hserviced := serviceWrite_serviced .w8 p (b.setWidth 32) s
  exact ⟨_, writeAccess_eq .w8 p _ s, by
    simpa [Width.bytes, writeTrace, writeBytes, writeRecords, byteOf_byte] using hserviced⟩

/-! ### The last registration (R82) -/

section LastBinding
variable {c : Command} {i : Instr} {p : Port} {g : HID}

theorem lastReadBinding_cons (cs : List Command) :
    lastReadBinding p (c :: cs) g = lastReadBinding p cs (lastReadBinding p [c] g) := rfl

theorem lastWriteBinding_cons (cs : List Command) :
    lastWriteBinding p (c :: cs) g = lastWriteBinding p cs (lastWriteBinding p [c] g) := rfl

theorem lastReadBinding_refused {r : RefuseReason} (ha : c.accept = .refused r) : lastReadBinding p [c] g = g := by
  simp [lastReadBinding, ha]

theorem lastWriteBinding_refused {r : RefuseReason} (ha : c.accept = .refused r) : lastWriteBinding p [c] g = g := by
  simp [lastWriteBinding, ha]

theorem lastReadBinding_regRead {q : Port} {h : HID} (ha : c.accept = .command (.regRead q h)) :
    lastReadBinding p [c] g = if p = q then h else g := by
  simp [lastReadBinding, ha, eq_comm]

theorem lastWriteBinding_regWrite {q : Port} {h : HID} (ha : c.accept = .command (.regWrite q h)) :
    lastWriteBinding p [c] g = if p = q then h else g := by
  simp [lastWriteBinding, ha, eq_comm]

theorem lastReadBinding_of_not_regRead (ha : c.accept = .command i) (hi : i.isRegRead = false) :
    lastReadBinding p [c] g = g := by
  cases i with
  | regRead => cases hi
  | _ => simp [lastReadBinding, ha]

theorem lastWriteBinding_of_not_regWrite (ha : c.accept = .command i) (hi : i.isRegWrite = false) :
    lastWriteBinding p [c] g = g := by
  cases i with
  | regWrite => cases hi
  | _ => simp [lastWriteBinding, ha]

theorem access_not_registration (h : i.isRead = true ∨ i.isWrite = true) :
    i.isRegRead = false ∧ i.isRegWrite = false := by
  cases i with
  | regRead | regWrite => rcases h with h | h <;> cases h
  | _ => exact ⟨rfl, rfl⟩

end LastBinding

/-- What both entries at `p` hold after the presented commands that took `s` to `t` (R82). -/
def BoundByLast (p : Port) (cs : List Command) (s t : State) : Prop :=
  Table.read t.rd p = lastReadBinding p cs (Table.read s.rd p) ∧
    Table.read t.wr p = lastWriteBinding p cs (Table.read s.wr p)

theorem BoundByLast.cons {p : Port} {c : Command} {cs : List Command} {s t u : State} (h : BoundByLast p [c] s t)
    (g : BoundByLast p cs t u) : BoundByLast p (c :: cs) s u := by
  obtain ⟨hr, hw⟩ := h
  obtain ⟨gr, gw⟩ := g
  exact ⟨by rw [lastReadBinding_cons cs, gr, hr], by rw [lastWriteBinding_cons cs, gw, hw]⟩

/-- An accepted command that registers nothing, and leaves the arrays alone. -/
theorem BoundByLast.of_not_registration {c : Command} {i : Instr} {s t : State} (ha : c.accept = .command i)
    (hi : i.isRegRead = false ∧ i.isRegWrite = false) (hrd : t.rd = s.rd) (hwr : t.wr = s.wr) (p : Port) :
    BoundByLast p [c] s t :=
  ⟨by rw [hrd, lastReadBinding_of_not_regRead ha hi.1], by rw [hwr, lastWriteBinding_of_not_regWrite ha hi.2]⟩

/-- A command performed binds what it registers, and nothing else (R23, R80, R81). -/
theorem did_boundByLast {c : Command} {i : Instr} {s t : State} (ha : c.accept = .command i) (hd : Did i s t) (p : Port) :
    BoundByLast p [c] s t := by
  cases hd with
  | serviced cs d h _ _ _ _ _ kind => exact .of_not_registration ha (access_not_registration kind) h.ran.rd h.ran.wr p
  | rejected r d h _ kind => exact .of_not_registration ha (access_not_registration kind) h.rd h.wr p
  | bound q h hx hi =>
    rcases hi with ⟨rfl, rfl⟩ | ⟨rfl, rfl⟩
    · constructor
      · rw [lastReadBinding_regRead ha]
        exact Table.read_write_external s.rd q p hx
      · rw [lastWriteBinding_of_not_regWrite ha rfl]
        rfl
    · constructor
      · rw [lastReadBinding_of_not_regRead ha rfl]
        rfl
      · rw [lastWriteBinding_regWrite ha]
        exact Table.read_write_external s.wr q p hx
  | refused _ ill => exact absurd (accept_wf ha) (by simp [ill])

/-- A step binds what the command it takes registers. -/
theorem step_boundByLast {s : State} {c : Command} {rest : List Command} (hc : s.commands = c :: rest) :
    ∃ t, step s = .next t ∧ t.commands = rest ∧ ∀ p, BoundByLast p [c] s t := by
  rcases step_cases s with ⟨hnil, _⟩ | ⟨c', rest', r, hc', ha, hs⟩ | ⟨c', rest', i, t, hc', ha, hs, _, hd⟩
  · rw [hc] at hnil
    cases hnil
  · obtain ⟨rfl, rfl⟩ := List.cons.inj (hc.symm.trans hc')
    exact ⟨_, hs, rfl, fun p => ⟨(lastReadBinding_refused ha).symm, (lastWriteBinding_refused ha).symm⟩⟩
  · obtain ⟨rfl, rfl⟩ := List.cons.inj (hc.symm.trans hc')
    have hbound := did_boundByLast ha hd
    exact ⟨t, hs, did_commands hd, hbound⟩

/-- Running all presented commands binds what the last registration at each port says (R82). -/
theorem runSteps_boundByLast {cs : List Command} {s : State} (hc : s.commands = cs) :
    ∃ t, runSteps cs.length s = .next t ∧ ∀ p, BoundByLast p cs s t := by
  induction cs generalizing s with
  | nil => exact ⟨s, rfl, fun p => ⟨rfl, rfl⟩⟩
  | cons c cs ih =>
    obtain ⟨t, hs, ht, hst⟩ := step_boundByLast hc
    obtain ⟨u, hrun, htu⟩ := ih ht
    exact ⟨u, (runSteps_succ hs).trans hrun, fun p => (hst p).cons (htu p)⟩

/-- Settles O22: the entries by induction over the presented commands, the rest by what a registration does and that arrays only
gain external handlers. -/
theorem lastRegistrationWins : Obligations.LastRegistrationWins := by
  refine ⟨fun cs s p hc => ?last, fun s p h hh => ?silent, fun k s t p hrun => ?kept⟩
  case last =>
    obtain ⟨t, hrun, hbound⟩ := runSteps_boundByLast hc
    exact ⟨t, hrun, hbound p⟩
  case silent =>
    have hx : externalHid h = true := (externalHid_iff h).2 hh
    have hread : Table.read (Table.write s.rd p h) p = h := by rw [Table.read_write_external _ _ _ hx, if_pos rfl]
    have hwrite : Table.read (Table.write s.wr p h) p = h := by rw [Table.read_write_external _ _ _ hx, if_pos rfl]
    exact ⟨⟨_, exec_regRead_external p hx s, rfl, rfl, rfl, hread⟩,
      ⟨_, exec_regWrite_external p hx s, rfl, rfl, rfl, hwrite⟩⟩
  case kept =>
    obtain ⟨hrd, hwr⟩ := runSteps_extends k s t hrun
    exact ⟨mt (Table.extends_builtin hrd rfl), mt (Table.extends_builtin hwr rfl)⟩

/-! ### The two registrations (R80, R81) -/

/-- Settles O18: the words by the row of REG_READ, the loss of the capability because arrays only gain external handlers, and
the example by the cycle that READ8 runs. -/
theorem regReadBindsTheReadEntry : Obligations.RegReadBindsTheReadEntry := by
  refine ⟨fun w hm hv => decode_of_regRead_mask hm hv, fun s p h hh => ?effect, fun s t u h k hh ha20 he hrun q hq => ?lost,
    by decide, fun s hs => ?worked⟩
  case effect =>
    have hx : externalHid h = true := (externalHid_iff h).2 hh
    exact ⟨_, exec_regRead_external p hx s, fun q => Table.read_write_external s.rd p q hx, rfl⟩
  case lost =>
    have hx : externalHid h = true := (externalHid_iff h).2 hh
    rw [exec_regRead_external _ hx] at he
    cases he
    have hrd := (runSteps_extends k _ u hrun).1
    exact Table.write_ne_a20 hx ha20 q (Table.extends_a20 hrd q hq)
  case worked =>
    obtain ⟨t, ht, hserviced⟩ := exec_read8_serviced 0x3F4#16 s
    obtain ⟨-, -, hdev⟩ := readCycle_answered 0x3F4#16 0x3F4#16 s
    obtain ⟨n, hn⟩ := hdev (by rw [hs]; decide)
    rw [hs] at hn
    exact ⟨t, n, ht, by rw [hserviced.responses, hn]⟩

/-- Settles O19: the words by the row of REG_WRITE, the frozen latch by R34 once no write entry holds the A20 handler, and the
example by the cycle that WRITE8 runs. -/
theorem regWriteBindsTheWriteEntry : Obligations.RegWriteBindsTheWriteEntry := by
  refine ⟨fun w hm hv => decode_of_regWrite_mask hm hv, fun s p h hh => ?effect, fun s t u h k hh ha20 he hrun => ?lost,
    by decide, fun s hs => ?worked⟩
  case effect =>
    have hx : externalHid h = true := (externalHid_iff h).2 hh
    exact ⟨_, exec_regWrite_external p hx s, fun q => Table.read_write_external s.wr p q hx, rfl⟩
  case lost =>
    have hx : externalHid h = true := (externalHid_iff h).2 hh
    rw [exec_regWrite_external _ hx] at he
    cases he
    exact (runSteps_latchFrozen hrun (Table.write_ne_a20 hx ha20)).2
  case worked =>
    obtain ⟨t, ht, hserviced⟩ := exec_write8_serviced 0x3F4#16 0x34#8 s
    refine ⟨t, ht, ?_⟩
    rw [hserviced.ran.devPort, hs]
    rfl

/-! ### The built-in handlers (R84) -/

/-- Settles O23: the words by the decoder's check of the handler identifier, the runs because arrays only gain external
handlers. -/
theorem builtinHandlersCannotBeRegistered : Obligations.BuiltinHandlersCannotBeRegistered := by
  refine ⟨?words, fun k s t p h hrun hh => ?runs⟩
  case words =>
    rintro w _ hrsv hcmd rfl hh
    have hr : (rsvField w).toNat = 0 := congrArg BitVec.toNat hrsv
    have hv : ¬ 2 ≤ (payloadField w).toNat := by
      rw [← externalHid_iff, Bool.not_eq_true]
      exact (externalHid_eq_false_iff _).2 hh
    rcases hcmd with hc | hc
    · exact (decode_regRead hr (congrArg BitVec.toNat hc)).trans (if_neg hv)
    · exact (decode_regWrite hr (congrArg BitVec.toNat hc)).trans (if_neg hv)
  case runs =>
    have hx : externalHid h = false := (externalHid_eq_false_iff h).2 hh
    obtain ⟨hrd, hwr⟩ := runSteps_extends k s t hrun
    exact ⟨Table.extends_builtin hrd hx, Table.extends_builtin hwr hx⟩

end Sys2Proof.Machine
end

section
/-! SUPPORT. Proofs of the statements of 41_port_access.md: first the straddle thresholds and what a serviced access runs, then
the obligations. -/

namespace Sys2Proof

/-- A word of an access row (R76) is that row's command with its operands in the word's fields (R75). -/
theorem decode_of_access_mask {w : Word64} {i : Instr} (hi : i ∈ rowCommands w) (ha : i.row.registration = false)
    (hm : w &&& i.row.mask = i.row.bits) : decode w = .command i :=
  (row_selects_iff hi).1 (by simp [OpcodeRow.selects, ha, hm])

end Sys2Proof

namespace Sys2Proof.Machine

/-! ### Straddling (R98, R99) -/

theorem straddles_two_iff (p : Port) : straddles p 2 = true ↔ 0xFFFE < p.toNat := by
  rw [straddles_iff]
  omega

theorem straddles_four_iff (p : Port) : straddles p 4 = true ↔ 0xFFFC < p.toNat := by
  rw [straddles_iff]
  omega

/-- Settles O33, from the predicate in exact arithmetic at each width. -/
theorem straddleThresholds : Obligations.StraddleThresholds := fun p =>
  ⟨straddles_iff p, straddles_two_iff p, straddles_four_iff p, straddles_one p⟩

section Access
variable {width : Width} {p : Port} (s : State)

theorem readAccess_of_straddles (h : straddles p width.bytes = true) :
    readAccess width p s = .next (rejectRead width p s) := by
  rw [readAccess_eq, if_pos h]

theorem writeAccess_of_straddles (v : Data) (h : straddles p width.bytes = true) :
    writeAccess width p v s = .next (rejectWrite width p v s) := by
  rw [writeAccess_eq, if_pos h]

theorem readAccess_of_not_straddles (h : ¬ straddles p width.bytes = true) :
    readAccess width p s = .next (serviceRead width p s) := by
  rw [readAccess_eq, if_neg h]

theorem writeAccess_of_not_straddles (v : Data) (h : ¬ straddles p width.bytes = true) :
    writeAccess width p v s = .next (serviceWrite width p v s) := by
  rw [writeAccess_eq, if_neg h]

/-- A read that does not straddle runs one answered cycle a slot and assembles their bytes (R94, R95). -/
theorem readAccess_serviced (h : ¬ straddles p width.bytes = true) : ∃ bs t, bs.length = width.bytes ∧
    readAccess width p s = .next t ∧ AnsweredAll s.a20 s.devPort (readRecords s.rd p (slots p width.bytes) bs) ∧
    Serviced s t (readRecords s.rd p (slots p width.bytes) bs) (assemble bs) :=
  ⟨_, _, by simp [readCycles_length, slots], readAccess_of_not_straddles s h, readCycles_answered p _ s,
    serviceRead_serviced width p s⟩

end Access

/-- Settles O34: each form is its access, and an access that straddles is its rejection. -/
theorem straddlingAccessIsRejectedWhole : Obligations.StraddlingAccessIsRejectedWhole := by
  intro s p
  refine ⟨fun h2 => ⟨?read16, fun v => ?write16⟩, fun h4 => ⟨?read32, fun v => ?write32⟩⟩
  case read16 => exact ⟨_, _, readAccess_of_straddles (width := .w16) s h2, rejectRead_rejected _ p s⟩
  case write16 => exact ⟨_, writeAccess_of_straddles (width := .w16) s _ h2, rejectWrite_rejected _ p _ s⟩
  case read32 => exact ⟨_, _, readAccess_of_straddles (width := .w32) s h4, rejectRead_rejected _ p s⟩
  case write32 => exact ⟨_, writeAccess_of_straddles (width := .w32) s _ h4, rejectWrite_rejected _ p _ s⟩

/-- Settles O35, from the four things a command can do: only a serviced one has cycles. -/
theorem everyCycleCarriesTheStartingPort : Obligations.EveryCycleCarriesTheStartingPort := by
  intro i s t he
  have noCycle (hh : t.hist = s.hist) : ∃ cs, t.hist = s.hist ++ cs ∧ (cs = [] ∨ cs.length = i.cycleCount) ∧
      ∀ k (hk : k < cs.length), cs[k].arg = i.port ∧ cs[k].slot.toNat = i.port.toNat + k :=
    ⟨[], by simp [hh], .inl rfl, by simp⟩
  cases did_of_exec he with
  | serviced cs d h slot count => exact ⟨cs, h.ran.hist, .inr count, slot⟩
  | rejected r d h => exact noCycle h.hist
  | bound p h _ hi => rcases hi with ⟨_, rfl⟩ | ⟨_, rfl⟩ <;> exact noCycle rfl
  | refused h => subst h; exact noCycle rfl

/-! ### Byte accesses (R92, R93) -/

/-- A step that takes an accepted command performs it. -/
theorem step_command {s : State} {c : Command} {rest : List Command} {i : Instr} (hc : s.commands = c :: rest)
    (ha : c.accept = .command i) : step s = exec i { s with commands := rest } := by
  simp [step, State.take_cons s c rest hc, ha]

/-- A word placed by `withFetchWord` is what the next step performs, from the state without it. -/
theorem step_withFetchWord (s : State) {n w : Nat} {i : Instr} (h : decode (BitVec.ofNat 64 (w % 2 ^ n)) = .command i) :
    step (s.withFetchWord n w) = exec i s :=
  step_command (s := s.withFetchWord n w) rfl (by simp [Command.accept, h])

theorem exec_read8_of_stub {p : Port} {s : State} (hp : Table.read s.rd p = hidStub) :
    ∃ t, exec (.read8 p) s = .next t ∧ t.responses = s.responses ++ [responseWord .ok 0xFF#32] := by
  obtain ⟨t, ht, hserviced⟩ := exec_read8_serviced p s
  obtain ⟨hstub, -, -⟩ := readCycle_answered p p s
  exact ⟨t, ht, by rw [hserviced.responses, hstub hp]; rfl⟩

theorem exec_read8_of_a20 {p : Port} {s : State} (hp : Table.read s.rd p = hidA20) :
    ∃ t, exec (.read8 p) s = .next t ∧ t.responses = s.responses ++ [responseWord .ok (s.a20.setWidth 32)] := by
  obtain ⟨t, ht, hserviced⟩ := exec_read8_serviced p s
  obtain ⟨-, ha20, -⟩ := readCycle_answered p p s
  exact ⟨t, ht, by rw [hserviced.responses, ha20 hp]⟩

theorem exec_write8_of_a20 {p : Port} {s : State} (b : Byte) (hp : Table.read s.wr p = hidA20) :
    ∃ t, exec (.write8 p b) s = .next t ∧ t.a20 = b ∧ t.rd = s.rd := by
  obtain ⟨t, ht, hserviced⟩ := exec_write8_serviced p b s
  exact ⟨t, ht, by rw [hserviced.ran.a20, hp]; rfl, hserviced.ran.rd⟩

/-- Settles O27: the word by its row, the cycle by the serviced READ8, the example by the stub that construction binds at
0x60. -/
theorem read8RunsOneReadCycle : Obligations.Read8RunsOneReadCycle := by
  refine ⟨fun w hm => decode_of_access_mask (by simp [rowCommands, portField]) rfl hm, fun p s => ?cycle, fun a => ?worked⟩
  case cycle =>
    obtain ⟨t, ht, hserviced⟩ := exec_read8_serviced p s
    exact ⟨_, t, ht, .cons (readCycle_answered p p s) (.nil _), hserviced⟩
  case worked =>
    have hstub : Table.read (State.construct false a).rd 0x60#16 = hidStub := Table.read_construct _
    rw [step_withFetchWord _ (by decide : _ = Decoded.command (.read8 0x60#16))]
    exact exec_read8_of_stub hstub

/-- Settles O28: the word by its row, the cycle by the serviced WRITE8, the example by the A20 handler that construction binds
at 0x92 in both arrays. -/
theorem write8RunsOneWriteCycle : Obligations.Write8RunsOneWriteCycle := by
  refine ⟨fun w hm => ?word, exec_write8_serviced, fun d a => ?worked⟩
  case word =>
    rw [← setWidth8_payloadField]
    exact decode_of_access_mask (by simp [rowCommands, portField]) rfl hm
  case worked =>
    have hwr : Table.read (State.construct d a).wr 0x92#16 = hidA20 := Table.read_construct _
    have hrd : Table.read (State.construct d a).rd 0x92#16 = hidA20 := Table.read_construct _
    obtain ⟨t, ht, hlatch, htrd⟩ := exec_write8_of_a20 0x02#8 hwr
    obtain ⟨u, hu, hresp⟩ := exec_read8_of_a20 (htrd ▸ hrd)
    rw [hlatch] at hresp
    rw [step_withFetchWord _ (by decide : _ = Decoded.command (.write8 0x92#16 0x02#8))]
    exact ⟨t, u, ht, hlatch, hu, hresp⟩

/-! ### Wider reads (R94, R95) -/

theorem exec_read16_serviced {p : Port} (hp : p.toNat ≤ 0xFFFE) (s : State) : ∃ b0 b1 t cs, exec (.read16 p) s = .next t ∧
    cs = [.rd p (Table.read s.rd p) p b0, .rd (p + 1) (Table.read s.rd (p + 1)) p b1] ∧
    AnsweredAll s.a20 s.devPort cs ∧ Serviced s t cs ((b1 ++ b0 : BitVec 16).setWidth 32) := by
  have hfits : ¬ straddles p Width.w16.bytes = true := mt (straddles_two_iff p).1 (Nat.not_lt.2 hp)
  obtain ⟨bs, t, hlen, ht, hanswered, hserviced⟩ := readAccess_serviced (width := .w16) s hfits
  obtain ⟨b0, b1, rfl⟩ := List.length_eq_two.1 hlen
  rw [Width.bytes, slots_two] at hanswered hserviced
  rw [assemble_two] at hserviced
  exact ⟨b0, b1, t, _, ht, rfl, hanswered, hserviced⟩

theorem exec_read32_serviced {p : Port} (hp : p.toNat ≤ 0xFFFC) (s : State) : ∃ b0 b1 b2 b3 t cs,
    exec (.read32 p) s = .next t ∧
    cs = [.rd p (Table.read s.rd p) p b0, .rd (p + 1) (Table.read s.rd (p + 1)) p b1,
      .rd (p + 2) (Table.read s.rd (p + 2)) p b2, .rd (p + 3) (Table.read s.rd (p + 3)) p b3] ∧
    AnsweredAll s.a20 s.devPort cs ∧ Serviced s t cs (b3 ++ b2 ++ b1 ++ b0) := by
  have hfits : ¬ straddles p Width.w32.bytes = true := mt (straddles_four_iff p).1 (Nat.not_lt.2 hp)
  obtain ⟨bs, t, hlen, ht, hanswered, hserviced⟩ := readAccess_serviced (width := .w32) s hfits
  match bs, hlen with
  | [b0, b1, b2, b3], _ =>
    rw [Width.bytes, slots_four] at hanswered hserviced
    rw [assemble_four] at hserviced
    exact ⟨b0, b1, b2, b3, t, _, ht, rfl, hanswered, hserviced⟩

/-- Settles O29: the word by its row, the rejection by the threshold of a straddling word. -/
theorem read16RunsTwoReadCycles : Obligations.Read16RunsTwoReadCycles :=
  ⟨fun _ hm => decode_of_access_mask (by simp [rowCommands, portField]) rfl hm,
    fun _ s hp => exec_read16_serviced hp s,
    fun p s hp => ⟨_, _, readAccess_of_straddles (width := .w16) s ((straddles_two_iff p).2 hp), rejectRead_rejected _ p s⟩,
    by decide, by decide⟩

/-- Settles O30: the word by its row, the rejection by the threshold of a straddling double word. -/
theorem read32RunsFourReadCycles : Obligations.Read32RunsFourReadCycles :=
  ⟨fun _ hm => decode_of_access_mask (by simp [rowCommands, portField]) rfl hm,
    fun _ s hp => exec_read32_serviced hp s,
    fun p s hp => ⟨_, _, readAccess_of_straddles (width := .w32) s ((straddles_four_iff p).2 hp), rejectRead_rejected _ p s⟩,
    by decide, by decide⟩

/-! ### Wider writes (R96, R97) -/

theorem writeTrace_w16 (p : Port) (v : BitVec 16) (s : State) : writeTrace .w16 p (v.setWidth 32) s =
    [.wr p (Table.read s.wr p) p (v.extractLsb' 0 8),
      .wr (p + 1) (Table.read s.wr (p + 1)) p (v.extractLsb' 8 8)] := by
  simp [writeTrace, writeRecords, writeBytes, Width.bytes, List.range_succ, slotAt_eq_add, byteOf_word]

theorem writeTrace_w32 (p : Port) (v : BitVec 32) (s : State) : writeTrace .w32 p v s =
    [.wr p (Table.read s.wr p) p (v.extractLsb' 0 8),
      .wr (p + 1) (Table.read s.wr (p + 1)) p (v.extractLsb' 8 8),
      .wr (p + 2) (Table.read s.wr (p + 2)) p (v.extractLsb' 16 8),
      .wr (p + 3) (Table.read s.wr (p + 3)) p (v.extractLsb' 24 8)] := by
  simp [writeTrace, writeRecords, writeBytes, Width.bytes, List.range_succ, slotAt_eq_add, byteOf]

theorem exec_write16_serviced {p : Port} (hp : p.toNat ≤ 0xFFFE) (v : BitVec 16) (s : State) :
    ∃ t, exec (.write16 p v) s = .next t ∧ Serviced s t [.wr p (Table.read s.wr p) p (v.extractLsb' 0 8),
      .wr (p + 1) (Table.read s.wr (p + 1)) p (v.extractLsb' 8 8)] 0#32 := by
  have hfits : ¬ straddles p Width.w16.bytes = true := mt (straddles_two_iff p).1 (Nat.not_lt.2 hp)
  rw [← writeTrace_w16]
  exact ⟨_, writeAccess_of_not_straddles s _ hfits, serviceWrite_serviced .w16 p _ s⟩

theorem exec_write32_serviced {p : Port} (hp : p.toNat ≤ 0xFFFC) (v : BitVec 32) (s : State) :
    ∃ t, exec (.write32 p v) s = .next t ∧ Serviced s t [.wr p (Table.read s.wr p) p (v.extractLsb' 0 8),
      .wr (p + 1) (Table.read s.wr (p + 1)) p (v.extractLsb' 8 8),
      .wr (p + 2) (Table.read s.wr (p + 2)) p (v.extractLsb' 16 8),
      .wr (p + 3) (Table.read s.wr (p + 3)) p (v.extractLsb' 24 8)] 0#32 := by
  have hfits : ¬ straddles p Width.w32.bytes = true := mt (straddles_four_iff p).1 (Nat.not_lt.2 hp)
  rw [← writeTrace_w32]
  exact ⟨_, writeAccess_of_not_straddles s _ hfits, serviceWrite_serviced .w32 p v s⟩

/-- Settles O31: the word by its row, the rejection by the threshold of a straddling word, the example by the serviced
WRITE16. -/
theorem write16RunsTwoWriteCycles : Obligations.Write16RunsTwoWriteCycles := by
  refine ⟨fun w hm => ?word, fun _ v s hp => exec_write16_serviced hp v s, fun p v s hp => ?rejected, fun p s hp => ?worked⟩
  case word =>
    rw [← setWidth16_payloadField]
    exact decode_of_access_mask (by simp [rowCommands, portField]) rfl hm
  case rejected =>
    exact ⟨_, writeAccess_of_straddles (width := .w16) s _ ((straddles_two_iff p).2 hp), rejectWrite_rejected _ p _ s⟩
  case worked =>
    obtain ⟨t, ht, hserviced⟩ := exec_write16_serviced hp 0x1234#16 s
    exact ⟨t, ht, hserviced.ran.hist⟩

/-- Settles O32: the word by its row, the rejection by the threshold of a straddling double word, the example by the serviced
WRITE32. -/
theorem write32RunsFourWriteCycles : Obligations.Write32RunsFourWriteCycles := by
  refine ⟨fun w hm => ?word, fun _ v s hp => exec_write32_serviced hp v s, fun p v s hp => ?rejected, by decide,
    fun s => ?worked⟩
  case word => exact decode_of_access_mask (by simp [rowCommands, portField, payloadField]) rfl hm
  case rejected =>
    exact ⟨_, writeAccess_of_straddles (width := .w32) s v ((straddles_four_iff p).2 hp), rejectWrite_rejected _ p v s⟩
  case worked =>
    obtain ⟨t, ht, hserviced⟩ := exec_write32_serviced (p := 0x1000#16) (by decide) 0xAABBCCDD#32 s
    exact ⟨t, ht, hserviced.ran.hist⟩

end Sys2Proof.Machine
end

section
/-! SUPPORT. Proofs of the statements of 42_builtin_handlers.md: first what a byte cycle through a built-in handler does, as
the whole next state, then the obligations. -/

namespace Sys2Proof.Machine

/-! ### Byte cycles through the built-in handlers (R110 to R114) -/

section Cycles
variable {slot : Port} (arg : Port) (b : Byte) {s : State}

theorem readCycle_of_stub (hs : Table.read s.rd slot = hidStub) : readCycle slot arg s =
    (stubByte, (reportStub .read slot arg stubByte s).record (.rd slot hidStub arg stubByte)) := by
  simp [readCycle, answerRead, hs, stubRead]

theorem writeCycle_of_stub (hs : Table.read s.wr slot = hidStub) :
    writeCycle slot arg b s = (reportStub .write slot arg b s).record (.wr slot hidStub arg b) := by
  simp [writeCycle, deliverWrite, hs, stubWrite]

theorem readCycle_of_a20 (hs : Table.read s.rd slot = hidA20) :
    readCycle slot arg s = (s.a20, s.record (.rd slot hidA20 arg s.a20)) := by
  simp [readCycle, answerRead, hs, a20Read]

theorem writeCycle_of_a20 (hs : Table.read s.wr slot = hidA20) :
    writeCycle slot arg b s = (s.latch b).record (.wr slot hidA20 arg b) := by
  simp [writeCycle, deliverWrite, hs, a20Write]

end Cycles

/-! ### The stub has no memory (R116) -/

/-- Only a registration in the read array writes the read array (R23). -/
theorem did_rd_of_not_regRead {i : Instr} {s t : State} (h : Did i s t) (hi : i.isRegRead = false) : t.rd = s.rd := by
  cases h with
  | serviced cs d h => exact h.ran.rd
  | rejected r d h => exact h.rd
  | bound p g _ hb =>
    rcases hb with ⟨rfl, _⟩ | ⟨_, rfl⟩
    · cases hi
    · rfl
  | refused h => rw [h, State.refuse_rd]

theorem exec_rd_of_isWrite {i : Instr} {s t : State} (hi : i.isWrite = true) (h : exec i s = .next t) : t.rd = s.rd :=
  did_rd_of_not_regRead (did_of_exec h) (access_not_registration (.inr hi)).1

theorem execAll_rd_of_isWrite {ws : List Instr} {s t : State} (hw : ∀ i ∈ ws, i.isWrite = true)
    (h : execAll ws s = .next t) : t.rd = s.rd :=
  execAll_induction (fun s t => t.rd = s.rd) (fun _ => rfl) (fun _ _ _ hst htu => htu.trans hst) ws
    (fun i hi _ _ => exec_rd_of_isWrite (hw i hi)) s t h

/-- Settles O42: no write changes the read array, so the port still reads through the stub. -/
theorem stubHasNoMemory : Obligations.StubHasNoMemory := by
  intro s p hrd _
  have reads {t : State} (ht : t.rd = s.rd) : ∃ u, exec (.read8 p) t = .next u ∧
      u.responses = t.responses ++ [responseWord .ok 0xFF#32] := exec_read8_of_stub (by rw [ht, hrd])
  refine ⟨fun v => ?byte, fun ws hw => ?mix⟩
  case byte =>
    obtain ⟨t, ht, _⟩ := exec_did (.write8 p v) s
    obtain ⟨u, hu⟩ := reads (exec_rd_of_isWrite rfl ht)
    exact ⟨t, u, ht, hu⟩
  case mix =>
    obtain ⟨t, ht⟩ := execAll_next ws s
    obtain ⟨u, hu⟩ := reads (execAll_rd_of_isWrite hw ht)
    exact ⟨t, u, ht, hu⟩

/-! ### The stub handlers (R110, R111) -/

/-- READ8 through the stub, with its record (R92, R110). -/
theorem exec_read8_of_stub_serviced {p : Port} {s : State} (hp : Table.read s.rd p = hidStub) :
    ∃ t, exec (.read8 p) s = .next t ∧ Serviced s t [.rd p hidStub p stubByte] 0xFF#32 := by
  have hserviced := exec_read8_serviced p s
  rw [hp, readCycle_of_stub p hp] at hserviced
  exact hserviced

/-- Settles O40: the cycles as whole states, READ8 by the stub that construction binds at 0x60, WRITE8 by its one cycle. -/
theorem stubHandlersReadFFAndDiscard : Obligations.StubHandlersReadFFAndDiscard := by
  refine ⟨fun s slot arg b => ⟨readCycle_of_stub arg, writeCycle_of_stub arg b⟩, fun d a => ?read, fun s hs => ?write⟩
  case read =>
    have hstub : Table.read (State.construct d a).rd 0x60#16 = hidStub := Table.read_construct _
    obtain ⟨t, ht, hran, hresp⟩ := exec_read8_of_stub_serviced hstub
    refine ⟨t, ht, hresp, ?_⟩
    rw [hran.diagOut]
    rfl
  case write =>
    rw [← hs]
    exact exec_write8_serviced 0x80#16 0x55#8 s

/-! ### The A20 handler (R113, R114) -/

/-- What a 16-bit write stores in the latch: its last byte delivered to the A20 handler, if one is (R48, R114). -/
theorem exec_write16_a20 {p : Port} (hp : p.toNat ≤ 0xFFFE) (v : BitVec 16) (s : State) :
    ∃ t, exec (.write16 p v) s = .next t ∧ t.a20 =
      if Table.read s.wr (p + 1) = hidA20 then v.extractLsb' 8 8
      else if Table.read s.wr p = hidA20 then v.extractLsb' 0 8 else s.a20 := by
  obtain ⟨t, ht, hserviced⟩ := exec_write16_serviced hp v s
  exact ⟨t, ht, hserviced.ran.a20⟩

/-- A byte written through the A20 handler is what READ8 through it answers next, at whichever ports it is bound. -/
theorem exec_write8_read8_of_a20 {p q : Port} {s : State} (b : Byte) (hp : Table.read s.wr p = hidA20)
    (hq : Table.read s.rd q = hidA20) : ∃ t u, exec (.write8 p b) s = .next t ∧ t.a20 = b ∧
      exec (.read8 q) t = .next u ∧ u.responses = t.responses ++ [responseWord .ok (b.setWidth 32)] := by
  obtain ⟨t, ht, hlatch, hrd⟩ := exec_write8_of_a20 b hp
  obtain ⟨u, hu, hresp⟩ := exec_read8_of_a20 (hrd ▸ hq)
  rw [hlatch] at hresp
  exact ⟨t, u, ht, hlatch, hu, hresp⟩

theorem Table.read_construct_eq_a20_iff (p : Port) : Table.read [(0x92, hidA20)] p = hidA20 ↔ p = a20Port := by
  rw [Table.read_construct]
  split_ifs with hp <;> simp [hp]

/-- Settles O41: the cycles as whole states, the bindings by the law of construction, the word writes by the last byte that
reaches the latch, the example by the write read back. -/
theorem a20HandlerReadsAndStoresTheLatch : Obligations.A20HandlerReadsAndStoresTheLatch := by
  refine ⟨fun s slot arg b => ⟨readCycle_of_a20 arg, fun hs => ⟨writeCycle_of_a20 arg b hs, ?out⟩⟩,
    fun d a p => ⟨Table.read_construct_eq_a20_iff p, Table.read_construct_eq_a20_iff p⟩,
    fun s v ha20 => ⟨fun _ => ?highByte, fun hstub => ?lowByte⟩, fun d a b => ?readBack⟩
  case out =>
    rw [writeCycle_of_a20 arg b hs]
    rfl
  case highByte =>
    obtain ⟨t, ht, hlatch⟩ := exec_write16_a20 (p := 0x91#16) (by decide) v s
    exact ⟨t, ht, hlatch.trans (if_pos ha20)⟩
  case lowByte =>
    obtain ⟨t, ht, hlatch⟩ := exec_write16_a20 (p := 0x92#16) (by decide) v s
    have hnext : Table.read s.wr (0x92#16 + 1) ≠ hidA20 := ne_of_eq_of_ne hstub (by decide)
    exact ⟨t, ht, hlatch.trans ((if_neg hnext).trans (if_pos ha20))⟩
  case readBack =>
    exact exec_write8_read8_of_a20 b ((Table.read_construct_eq_a20_iff _).2 rfl) ((Table.read_construct_eq_a20_iff _).2 rfl)

end Sys2Proof.Machine
end

section
/-! SUPPORT. Proofs of the statements of 60_exceptions.md: an accepted command, being well formed, is answered and not refused. -/

namespace Sys2Proof.Machine

/-- A word the decoder accepts is a command accepted, when no handler issued it during a byte cycle (R66, R125). -/
theorem accept_of_decode_command {w : Word64} {i : Instr} (h : decode w = .command i) :
    Command.accept ⟨w, false⟩ = .command i := by
  simp [Command.accept, h]

/-- A well-formed command is answered exactly once and refuses nothing: only an ill-formed one is refused (R84, R120). -/
theorem did_responds {i : Instr} {s t : State} (h : Did i s t) (hwf : i.wf = true) :
    ∃ st d, t.responses = s.responses ++ [responseWord st d] ∧ t.refusals = s.refusals := by
  cases h with
  | serviced cs d h => exact ⟨.ok, d, h.responses, h.ran.refusals⟩
  | rejected r d h => exact ⟨.rejected, d, h.responses, h.refusals⟩
  | bound p h _ hi => rcases hi with ⟨_, rfl⟩ | ⟨_, rfl⟩ <;> exact ⟨.ok, 0#32, rfl, rfl⟩
  | refused _ ill => exact absurd hwf (by simp [ill])

/-- Settles O13: the step performs the accepted command, which is well formed and so is answered. -/
theorem acceptedCommandCompletesWithResponse : Obligations.AcceptedCommandCompletesWithResponse := by
  refine ⟨step_next, fun s w rest i hc hd => ?_⟩
  have haccept : Command.accept ⟨w, false⟩ = .command i := accept_of_decode_command hd
  obtain ⟨t, ht, hdid⟩ := exec_did i { s with commands := rest }
  obtain ⟨st, d, hresponses, hrefusals⟩ := did_responds hdid (accept_wf haccept)
  exact ⟨t, st, d, (step_command hc haccept).trans ht, hresponses, hrefusals, did_commands hdid⟩

end Sys2Proof.Machine
end

section
/-! SUPPORT. Proofs about the encoding and the words of a response: the encoder inverts the decoder, and both words by their
fields. -/

namespace Sys2Proof

/-- Settles O1, by the decoder's characterisation by fields. -/
theorem encodedCommandDecodesToItself : Obligations.EncodedCommandDecodesToItself :=
  fun _ => decode_encode

/-- Settles O2: an accepted word has RSV zero, so it is the word of its fields, and those are the command's. -/
theorem acceptedWordIsTheEncodingOfItsCommand : Obligations.AcceptedWordIsTheEncodingOfItsCommand := by
  intro w i h
  obtain ⟨hwf, hrsv, hcmd, hport, hpayload⟩ := decode_command h
  refine ⟨hwf, ?_⟩
  rw [encode, hpayload, hport, hcmd]
  exact formatC_fields w hrsv

/-- The fields of a format C word do not overlap, so the word is their shifts or-ed together (R60). -/
theorem formatC_eq_or (v : Data) (p : Port) (c : BitVec 4) :
    formatC v p c = c.setWidth 64 ||| p.setWidth 64 <<< 4 ||| v.setWidth 64 <<< 20 := by
  apply BitVec.eq_of_getLsbD_eq
  intro i hi
  simp only [formatC, BitVec.getLsbD_append, BitVec.getLsbD_or, BitVec.getLsbD_shiftLeft, BitVec.getLsbD_setWidth]
  have := c.getLsbD_of_ge i
  have := p.getLsbD_of_ge (i - 4)
  grind

/-- Settles O7, from the format C word as an or of its fields. -/
theorem encodingIsCmdPortPayloadShifted : Obligations.EncodingIsCmdPortPayloadShifted :=
  fun i => formatC_eq_or i.payload i.port i.cmdCode

/-- Settles O6: twelve evaluations of the decoder. -/
theorem sampleWordsDecode : Obligations.SampleWordsDecode := by
  unfold Obligations.SampleWordsDecode
  decide

end Sys2Proof

namespace Sys2Proof.Machine

/-- Settles O8: the response word is the concatenation of the three fields. -/
theorem responseWordFields : Obligations.ResponseWordFields := by
  intro st d
  have hstatus : (responseWord st d).extractLsb' 0 2 = st.code := statusField_responseWord st d
  refine ⟨?status, ?zero, ?rdata⟩
  case status =>
    rw [hstatus]
    cases st <;> rfl
  case zero =>
    ext i hi
    simp [responseWord]
    grind
  case rdata =>
    ext i hi
    simp [responseWord]
    grind

end Sys2Proof.Machine
end

section
/-! SUPPORT. Proofs about one step and its outcomes: what a step does with the next command presented, and what each command
leaves alone. -/

namespace Sys2Proof.Machine

/-! ### The next command (R48, R125) -/

/-- Settles O10, from what a step does with an accepted command. -/
theorem stepRunsTheDecodedCommand : Obligations.StepRunsTheDecodedCommand :=
  ⟨fun _ _ _ _ hc hd => step_command hc (accept_of_decode_command hd), fun s _ _ _ hd => step_withFetchWord s hd⟩

theorem step_of_no_command {s : State} (hc : s.commands = []) : step s = .next s := by
  simp [step, hc, State.idle]

/-- Settles O11: with no command to take, the step idles. -/
theorem stepWaitsForACommand : Obligations.StepWaitsForACommand :=
  fun _ => step_of_no_command

theorem accept_of_reentrant {w : Word64} {i : Instr} (h : decode w = .command i) :
    Command.accept ⟨w, true⟩ = .refused .reentrantCommand := by
  simp [Command.accept, h]

/-- Settles O12: the command is not accepted, and a step that takes a refused command refuses it. -/
theorem reentrantCommandIsRefused : Obligations.ReentrantCommandIsRefused :=
  fun _ _ _ _ hc hd => step_refused hc (accept_of_reentrant hd)

/-- Settles O24: a built-in handler is not one that may be registered. -/
theorem illFormedRegistrationIsRefused : Obligations.IllFormedRegistrationIsRefused := by
  intro s p h hh
  have hx : ¬ externalHid h = true := mt (externalHid_iff h).1 (Nat.not_le.2 hh)
  exact ⟨by rw [exec_regRead_eq, if_neg hx]; rfl, by rw [exec_regWrite_eq, if_neg hx]; rfl⟩

/-! ### The outcomes (R121) -/

/-- A command performed is serviced, rejected or refused. -/
theorem did_outcome {i : Instr} {s t : State} (h : Did i s t) :
    (∃ d, t.responses = s.responses ++ [responseWord .ok d] ∧ t.refusals = s.refusals) ∨
      (∃ r d, r.isStub = false ∧ Rejected s t r d) ∨ ∃ r, t = refusedAs s r := by
  cases h with
  | serviced cs d h => exact .inl ⟨d, h.responses, h.ran.refusals⟩
  | rejected r d h report => exact .inr (.inl ⟨r, d, report, h⟩)
  | bound p h _ hi => rcases hi with ⟨_, rfl⟩ | ⟨_, rfl⟩ <;> exact .inl ⟨0#32, rfl, rfl⟩
  | refused h => exact .inr (.inr ⟨_, h⟩)

/-- Settles O14: a command presented is refused at once, or performed with one of the three outcomes. -/
theorem everyCommandHasOneOutcome : Obligations.EveryCommandHasOneOutcome := by
  intro s c rest hc
  cases ha : c.accept with
  | refused r => exact ⟨_, step_refused hc ha, rfl, .inr (.inr ⟨r, rfl⟩)⟩
  | command i =>
    obtain ⟨t, ht, hd⟩ := exec_did i { s with commands := rest }
    exact ⟨t, (step_command hc ha).trans ht, did_commands hd, did_outcome hd⟩

/-! ### What a command leaves alone (R23, R45) -/

/-- Only a registration in the write array writes the write array (R23). -/
theorem did_wr_of_not_regWrite {i : Instr} {s t : State} (h : Did i s t) (hi : i.isRegWrite = false) : t.wr = s.wr := by
  cases h with
  | serviced cs d h => exact h.ran.wr
  | rejected r d h => exact h.wr
  | bound p g _ hb =>
    rcases hb with ⟨_, rfl⟩ | ⟨rfl, _⟩
    · rfl
    · cases hi
  | refused h => rw [h, State.refuse_wr]

/-- Settles O21, one array at a time. -/
theorem onlyRegistrationWritesTheArrays : Obligations.OnlyRegistrationWritesTheArrays := fun _ _ _ he =>
  ⟨did_rd_of_not_regRead (did_of_exec he), did_wr_of_not_regWrite (did_of_exec he)⟩

/-- Only a registration can be ill formed (R64). -/
theorem access_wf {i : Instr} (h : i.isRead = true ∨ i.isWrite = true) : i.wf = true := by
  cases i with
  | regRead | regWrite => rcases h with h | h <;> cases h
  | _ => rfl

/-- An access changes neither array, nor the mode, the refusals or the commands presented (R45). -/
theorem access_frame {i : Instr} {s t : State} (hi : i.isRead = true ∨ i.isWrite = true) (h : Did i s t) :
    t.rd = s.rd ∧ t.wr = s.wr ∧ t.diagEn = s.diagEn ∧ t.refusals = s.refusals ∧ t.commands = s.commands := by
  obtain ⟨hread, hwrite⟩ := access_not_registration hi
  obtain ⟨_, _, _, hrefusals⟩ := did_responds h (access_wf hi)
  exact ⟨did_rd_of_not_regRead h hread, did_wr_of_not_regWrite h hwrite, did_diagEn h, hrefusals, did_commands h⟩

theorem did_a20_of_isRead {i : Instr} {s t : State} (hi : i.isRead = true) (h : Did i s t) : t.a20 = s.a20 := by
  cases h with
  | serviced cs d h _ _ _ _ latch => exact h.ran.a20.trans (latch hi)
  | rejected r d h => exact h.a20
  | bound p h _ hb => rcases hb with ⟨_, rfl⟩ | ⟨_, rfl⟩ <;> rfl
  | refused h => rw [h, State.refuse_a20]

/-- Settles O36: the frame of an access, and that no read cycle writes the latch. -/
theorem readsChangeNoBlockState : Obligations.ReadsChangeNoBlockState := by
  intro i s t hi he
  have hd : Did i s t := did_of_exec he
  obtain ⟨hrd, hwr, hen, hrefusals, hcommands⟩ := access_frame (.inl hi) hd
  exact ⟨hrd, hwr, did_a20_of_isRead hi hd, hen, hrefusals, hcommands⟩

/-- A command none of whose slots is bound to the A20 handler leaves the latch alone (R114). -/
theorem did_a20_of_slots {i : Instr} {s t : State} (h : Did i s t) (hw : ∀ q : Port, i.port.toNat ≤ q.toNat →
    q.toNat < i.port.toNat + i.cycleCount → Table.read s.wr q ≠ hidA20) : t.a20 = s.a20 := by
  cases h with
  | serviced cs d h slot count through =>
    have hslots : ∀ c ∈ cs, Table.read s.wr c.slot ≠ hidA20 := by
      intro c hc
      obtain ⟨k, hk, rfl⟩ := List.getElem_of_mem hc
      have hslot := (slot k hk).2
      exact hw _ (by omega) (by omega)
    rw [h.ran.a20]
    exact latchAfter_none _ _ (through_writesLatch _ _ _ through hslots)
  | rejected r d h => exact h.a20
  | bound p h _ hb => rcases hb with ⟨_, rfl⟩ | ⟨_, rfl⟩ <;> rfl
  | refused h => rw [h, State.refuse_a20]

/-- Settles O37: the frame of an access, and that the latch follows the cycles through its slots. -/
theorem writesChangeOnlyTheLatch : Obligations.WritesChangeOnlyTheLatch := by
  intro i s t hi he
  have hd : Did i s t := did_of_exec he
  obtain ⟨hrd, hwr, hen, hrefusals, hcommands⟩ := access_frame (.inr hi) hd
  exact ⟨hrd, hwr, hen, hrefusals, hcommands, did_a20_of_slots hd⟩

/-! ### Spans (R71) -/

/-- The array with every listed port bound to `h`. -/
def Table.bindAll (t : Table) (ps : List Port) (h : HID) : Table := ps.foldl (fun t p => Table.write t p h) t

theorem Table.read_bindAll (t : Table) (ps : List Port) {h : HID} (hx : externalHid h = true) (q : Port) :
    Table.read (Table.bindAll t ps h) q = if q ∈ ps then h else Table.read t q := by
  induction ps generalizing t with
  | nil => simp [Table.bindAll]
  | cons p ps ih =>
    have hcons : Table.bindAll t (p :: ps) h = Table.bindAll (Table.write t p h) ps h := rfl
    rw [hcons, ih, Table.read_write_external t p q hx]
    by_cases hq : q ∈ ps <;> simp [hq]

/-- Registering listed ports in the read array binds them all, answers one OK a port, and changes nothing else. -/
theorem execAll_regRead (ps : List Port) {h : HID} (hx : externalHid h = true) (s : State) :
    execAll (ps.map fun p => .regRead p h) s = .next { s with
      rd := Table.bindAll s.rd ps h
      responses := s.responses ++ List.replicate ps.length (responseWord .ok 0#32) } := by
  induction ps generalizing s with
  | nil => simp [execAll, Table.bindAll]
  | cons p ps ih =>
    rw [List.map_cons, execAll_cons (exec_regRead_external p hx s), ih]
    simp [State.bindRead, State.respond, Table.bindAll, List.replicate_succ]

/-- Registering listed ports in the write array, likewise. -/
theorem execAll_regWrite (ps : List Port) {h : HID} (hx : externalHid h = true) (s : State) :
    execAll (ps.map fun p => .regWrite p h) s = .next { s with
      wr := Table.bindAll s.wr ps h
      responses := s.responses ++ List.replicate ps.length (responseWord .ok 0#32) } := by
  induction ps generalizing s with
  | nil => simp [execAll, Table.bindAll]
  | cons p ps ih =>
    rw [List.map_cons, execAll_cons (exec_regWrite_external p hx s), ih]
    simp [State.bindWrite, State.respond, Table.bindAll, List.replicate_succ]

theorem spanPorts_length (p : Port) (n : Nat) : (spanPorts p n).length = n := by simp [spanPorts]

/-- A span that fits is the ports from `p` to `p + n - 1`, without wrap. -/
theorem mem_spanPorts_iff {p : Port} {n : Nat} (hfit : p.toNat + n - 1 ≤ 0xFFFF) (q : Port) :
    q ∈ spanPorts p n ↔ p.toNat ≤ q.toNat ∧ q.toNat < p.toNat + n := by
  rw [spanPorts_eq_slots, slots, List.mem_map]
  constructor
  · rintro ⟨k, hk, rfl⟩
    rw [List.mem_range] at hk
    rw [slotAt_toNat p k (by omega)]
    omega
  · rintro ⟨hlo, hhi⟩
    refine ⟨q.toNat - p.toNat, List.mem_range.2 (by omega), BitVec.eq_of_toNat_eq ?_⟩
    rw [slotAt_toNat p _ (by omega)]
    omega

/-- Settles O26: the expansion registers exactly the ports of the span, and each array is read after the writes of them all. -/
theorem spanRegistersEveryPortOfIt : Obligations.SpanRegistersEveryPortOfIt := by
  intro s p n h hh hn hfit
  have hx : externalHid h = true := (externalHid_iff h).2 hh
  have hspan : spanFits p n = true := (spanFits_iff p n).2 ⟨hn, hfit⟩
  have hread (t : Table) (q : Port) : Table.read (Table.bindAll t (spanPorts p n) h) q =
      if p.toNat ≤ q.toNat ∧ q.toNat < p.toNat + n then h else Table.read t q := by
    simp only [Table.read_bindAll t _ hx, mem_spanPorts_iff hfit]
  refine ⟨⟨_, _, if_pos hspan, execAll_regRead _ hx s, hread s.rd, ?_⟩,
    ⟨_, _, if_pos hspan, execAll_regWrite _ hx s, hread s.wr, ?_⟩⟩
  · rw [spanPorts_length]
  · rw [spanPorts_length]

end Sys2Proof.Machine
end

section
/-! SUPPORT. Proofs about built-in and external handlers: what a read through each answers, and what a device is told. -/

namespace Sys2Proof.Machine

/-! ### Reads through built-in handlers (R42, R46) -/

/-- The byte of a read cycle through a built-in handler depends on the handler and the latch only (R110, R113). -/
theorem answered_builtin {a : Byte} {port : List DevXfer} {slot arg : Port} {h : HID} {b : Byte} (hh : h.toNat < 2)
    (hb : (Cycle.rd slot h arg b).answered a port) : b = if h = hidStub then stubByte else a := by
  obtain ⟨stub, a20, _⟩ := hb
  rcases hid_cases h with e | e | e
  · rw [if_pos e, stub e]
  · rw [if_neg (e ▸ by decide), a20 e]
  · omega

/-- READ8 through a built-in handler answers its byte, and keeps the read array and the latch. -/
theorem exec_read8_of_builtin {p : Port} {s : State} (hp : (Table.read s.rd p).toNat < 2) :
    ∃ t, exec (.read8 p) s = .next t ∧ t.rd = s.rd ∧ t.a20 = s.a20 ∧ t.responses = s.responses ++
      [responseWord .ok ((if Table.read s.rd p = hidStub then stubByte else s.a20).setWidth 32)] := by
  obtain ⟨t, ht, hserviced⟩ := exec_read8_serviced p s
  refine ⟨t, ht, hserviced.ran.rd, hserviced.ran.a20, ?_⟩
  rw [hserviced.responses, answered_builtin hp (readCycle_answered p p s)]

/-- READ16 through two built-in handlers runs their cycles in order, and answers the second byte above the first. -/
theorem exec_read16_of_builtin {p : Port} {s : State} (hp : p.toNat ≤ 0xFFFE) (h0 : (Table.read s.rd p).toNat < 2)
    (h1 : (Table.read s.rd (p + 1)).toNat < 2) : ∃ b0 b1 t, exec (.read16 p) s = .next t ∧
      b0 = (if Table.read s.rd p = hidStub then stubByte else s.a20) ∧
      b1 = (if Table.read s.rd (p + 1) = hidStub then stubByte else s.a20) ∧
      Serviced s t [.rd p (Table.read s.rd p) p b0, .rd (p + 1) (Table.read s.rd (p + 1)) p b1]
        ((b1 ++ b0 : BitVec 16).setWidth 32) := by
  obtain ⟨b0, b1, t, _, ht, rfl, hanswered, hserviced⟩ := exec_read16_serviced hp s
  rw [answeredAll_cons, answeredAll_cons] at hanswered
  obtain ⟨ha0, ha1, -⟩ := hanswered
  exact ⟨b0, b1, t, ht, answered_builtin h0 ha0, answered_builtin h1 ha1, hserviced⟩

/-- Settles O39: each byte is fixed by its handler and the latch, which the first READ8 keeps. -/
theorem wordReadSeesTheSameBytesAsByteReads : Obligations.WordReadSeesTheSameBytesAsByteReads := by
  intro s p hp h0 h1
  obtain ⟨t, ht, hrd, hlatch, htr⟩ := exec_read8_of_builtin h0
  obtain ⟨u, hu, -, -, hur⟩ := exec_read8_of_builtin (hrd ▸ h1)
  obtain ⟨b0, b1, v, hv, rfl, rfl, hserviced⟩ := exec_read16_of_builtin hp h0 h1
  refine ⟨_, _, t, u, v, ht, hu, hv, ?_, hserviced.responses⟩
  rw [hur, htr, hrd, hlatch, List.append_assoc]
  rfl

/-- Settles O38: the read by its two built-in cycles, the write by the last byte that reaches the latch. -/
theorem accessAcrossStubAndA20 : Obligations.AccessAcrossStubAndA20 := by
  refine ⟨fun s hstub ha20 => ?read, fun s v _ ha20 => ?write⟩
  case read =>
    have ha20' : Table.read s.rd (0x91#16 + 1) = hidA20 := ha20
    obtain ⟨b0, b1, t, ht, hb0, hb1, hserviced⟩ := exec_read16_of_builtin (p := 0x91#16) (s := s) (by decide)
      (by rw [hstub]; decide) (by rw [ha20']; decide)
    rw [hstub, if_pos rfl] at hb0
    rw [ha20', if_neg (by decide)] at hb1
    rw [hstub, ha20', hb0, hb1] at hserviced
    exact ⟨t, ht, hserviced.ran.hist, hserviced.responses⟩
  case write =>
    obtain ⟨t, ht, hlatch⟩ := exec_write16_a20 (p := 0x91#16) (by decide) v s
    exact ⟨t, ht, hlatch.trans (if_pos ha20)⟩

/-- Settles O44, from a write and a read through the A20 handler one after the other. -/
theorem a20WriteIsReadBack : Obligations.A20WriteIsReadBack :=
  fun _ _ _ b hp hq => exec_write8_read8_of_a20 b hp hq

/-! ### Cycles through external handlers (R72, R73) -/

/-- A read cycle through an external handler is a device-port transfer, recorded (R90). -/
theorem readCycle_of_external {slot : Port} (arg : Port) {s : State} (hh : 2 ≤ (Table.read s.rd slot).toNat) :
    readCycle slot arg s = ((deviceRead (Table.read s.rd slot) arg s).1,
      (deviceRead (Table.read s.rd slot) arg s).2.record
        (.rd slot (Table.read s.rd slot) arg (deviceRead (Table.read s.rd slot) arg s).1)) := by
  have hx : externalHid (Table.read s.rd slot) = true := (externalHid_iff _).2 hh
  simp [readCycle, answerRead, externalHid_ne_stub _ hx, externalHid_ne_a20 _ hx]

/-- A write cycle through an external handler is a device-port transfer, recorded (R91). -/
theorem writeCycle_of_external {slot : Port} (arg : Port) (b : Byte) {s : State} (hh : 2 ≤ (Table.read s.wr slot).toNat) :
    writeCycle slot arg b s =
      (s.transfer (.write (Table.read s.wr slot) arg b)).record (.wr slot (Table.read s.wr slot) arg b) := by
  have hx : externalHid (Table.read s.wr slot) = true := (externalHid_iff _).2 hh
  simp [writeCycle, deliverWrite, deviceWrite, externalHid_ne_stub _ hx, externalHid_ne_a20 _ hx]

/-- The byte drawn, and the one transfer that carries it, without the slot (R73). -/
theorem readCycle_draw_of_external {slot : Port} (arg : Port) {s : State} (hh : 2 ≤ (Table.read s.rd slot).toNat) :
    (readCycle slot arg s).1 = Config.devRead s.draws s.devPort (Table.read s.rd slot) arg ∧
      (readCycle slot arg s).2.devPort = s.devPort ++
        [.read (Table.read s.rd slot) arg (Config.devRead s.draws s.devPort (Table.read s.rd slot) arg)] := by
  rw [readCycle_of_external arg hh]
  exact ⟨rfl, rfl⟩

/-- Settles O50: an external cycle's byte and transfer are made of the draw number, the transfers, the handler and the
argument. -/
theorem deviceIsNotToldTheSlot : Obligations.DeviceIsNotToldTheSlot := by
  refine ⟨?reads, ?writes, ?sameAnswer⟩
  case reads =>
    rintro s slot arg _ hh rfl
    exact ⟨s.draws, _, rfl, readCycle_draw_of_external arg hh⟩
  case writes =>
    rintro s slot arg _ b hh rfl
    rw [writeCycle_of_external arg b hh]
    rfl
  case sameAnswer =>
    intro s t x y arg hh hsame hport hdraws
    obtain ⟨hbyte, hxfer⟩ := readCycle_draw_of_external arg hh
    obtain ⟨hbyte', hxfer'⟩ := readCycle_draw_of_external (slot := y) (s := t) arg (hsame ▸ hh)
    rw [hbyte, hxfer, hbyte', hxfer', hsame, hport, hdraws]
    exact ⟨rfl, rfl⟩

end Sys2Proof.Machine
end

section
/-! SUPPORT. Proofs about whole runs: the state as a function of the history, and the invariant. -/

namespace Sys2Proof.Machine

@[simp] theorem stubRecords_nil (en : Bool) : stubRecords en [] = [] := by cases en <;> rfl

/-! ### The latch and the device port (R25, R72) -/

/-- From `s` to `t` the latch and the device port follow the cycles run (R72, R114). -/
def FollowsHistory (s t : State) : Prop :=
  ∃ cs, t.hist = s.hist ++ cs ∧ t.a20 = latchAfter s.a20 cs ∧ t.devPort = s.devPort ++ cs.filterMap Cycle.transfer

/-- Where no cycle ran, the latch and the device port are unchanged. -/
theorem FollowsHistory.of_same {s t : State} (hh : t.hist = s.hist) (ha : t.a20 = s.a20) (hp : t.devPort = s.devPort) :
    FollowsHistory s t :=
  ⟨[], by simp [hh], ha, by simp [hp]⟩

theorem FollowsHistory.trans {s t u : State} (h : FollowsHistory s t) (g : FollowsHistory t u) : FollowsHistory s u := by
  obtain ⟨cs, hh, ha, hp⟩ := h
  obtain ⟨ds, gh, ga, gp⟩ := g
  exact ⟨cs ++ ds, by simp [gh, hh], by rw [ga, ha, latchAfter_append], by simp [gp, hp]⟩

theorem did_followsHistory {i : Instr} {s t : State} (h : Did i s t) : FollowsHistory s t := by
  cases h with
  | serviced cs d h => exact ⟨cs, h.ran.hist, h.ran.a20, h.ran.devPort⟩
  | rejected r d h => exact .of_same h.hist h.a20 h.devPort
  | bound p h _ hi => rcases hi with ⟨_, rfl⟩ | ⟨_, rfl⟩ <;> exact .of_same rfl rfl rfl
  | refused h => subst h; exact .of_same rfl rfl rfl

/-- Settles O45, by induction over the run. -/
theorem latchAndDevicePortFollowTheHistory : Obligations.LatchAndDevicePortFollowTheHistory := fun _ _ _ =>
  runSteps_did_induction FollowsHistory (fun _ => .of_same rfl rfl rfl) (fun _ _ _ => .trans)
    (fun _ _ => .of_same rfl rfl rfl) (fun _ _ => .of_same rfl rfl rfl) (fun _ _ _ => did_followsHistory)

theorem execAll_followsHistory {is : List Instr} {s t : State} (h : execAll is s = .next t) : FollowsHistory s t :=
  execAll_induction FollowsHistory (fun _ => .of_same rfl rfl rfl) (fun _ _ _ => .trans) is
    (fun _ _ _ _ he => did_followsHistory (did_of_exec he)) s t h

/-- Settles O43: the byte read is the stub's or the latch's, and the latch follows the cycles of the commands before it. -/
theorem builtinReadsRepeat : Obligations.BuiltinReadsRepeat := by
  intro is s t p h
  obtain ⟨cs, hhist, hlatch, -⟩ := execAll_followsHistory h
  obtain ⟨u, hu, hserviced⟩ := exec_read8_serviced p t
  obtain ⟨hstub, ha20, -⟩ := readCycle_answered p p t
  refine ⟨cs, u, hhist, hu, fun hp => ?_, fun hp hcs => ?_⟩
  · rw [hserviced.responses, hstub hp]
    rfl
  · rw [hserviced.responses, ha20 hp, hlatch, latchAfter_none _ _ hcs]

/-! ### The invariant -/

/-- What the invariant says of each cycle: a stub read gave 0xFF, and the slot lies in an access (R98, R100, R110). -/
def Cycle.regular (c : Cycle) : Prop :=
  (∀ slot arg b, c = .rd slot hidStub arg b → b = stubByte) ∧
    c.arg.toNat ≤ c.slot.toNat ∧ c.slot.toNat ≤ c.arg.toNat + 3

theorem Inv.regular {s : State} (h : Inv s) : ∀ c ∈ s.hist, c.regular := by
  intro c hc
  refine ⟨?_, h.slotRange c hc⟩
  rintro slot arg b rfl
  exact h.stubReads slot arg b hc

theorem cycleCount_le (i : Instr) : i.cycleCount ≤ 4 := by cases i <;> simp [Instr.cycleCount]

/-- The cycles of a command are regular. -/
theorem did_regular {i : Instr} {s t : State} (h : Did i s t) (hs : ∀ c ∈ s.hist, c.regular) :
    ∀ c ∈ t.hist, c.regular := by
  cases h with
  | serviced cs d h slot count _ answered =>
    intro c hc
    rw [h.ran.hist, List.mem_append] at hc
    rcases hc with hc | hc
    · exact hs c hc
    · obtain ⟨k, hk, rfl⟩ := List.getElem_of_mem hc
      obtain ⟨harg, hslot⟩ := slot k hk
      have hcount := cycleCount_le i
      refine ⟨fun slot arg b hb => answeredAll_stub answered (hb ▸ hc), ?_, ?_⟩
      · rw [harg]
        omega
      · rw [harg]
        omega
  | rejected r d h => exact h.hist ▸ hs
  | bound p h _ hi => rcases hi with ⟨_, rfl⟩ | ⟨_, rfl⟩ <;> exact hs
  | refused h => subst h; exact hs

/-- Every command keeps the canonical form of both arrays (log 12). -/
theorem did_canonical {i : Instr} {s t : State} (h : Did i s t) (hrd : Table.wf s.rd) (hwr : Table.wf s.wr) :
    Table.wf t.rd ∧ Table.wf t.wr := by
  cases h with
  | serviced cs d h => rw [h.ran.rd, h.ran.wr]; exact ⟨hrd, hwr⟩
  | rejected r d h => rw [h.rd, h.wr]; exact ⟨hrd, hwr⟩
  | bound p h _ hi =>
    rcases hi with ⟨_, rfl⟩ | ⟨_, rfl⟩
    · exact ⟨Table.write_wf _ p h hrd, hwr⟩
    · exact ⟨hrd, Table.write_wf _ p h hwr⟩
  | refused h => subst h; exact ⟨hrd, hwr⟩

/-- Every command keeps the invariant: each clause by what a command does to the part of the state it speaks of. -/
theorem did_inv {i : Instr} {s t : State} (h : Did i s t) (hs : Inv s) : Inv t := by
  obtain ⟨hrd, hwr⟩ := did_canonical h hs.rdCanonical hs.wrCanonical
  obtain ⟨xrd, xwr⟩ := did_extends h
  obtain ⟨cs, hhist, -, hport⟩ := did_followsHistory h
  obtain ⟨hen, cs', ds, hhist', hout, hreports⟩ := did_reports h
  have hregular := did_regular h hs.regular
  exact {
    rdCanonical := hrd
    wrCanonical := hwr
    rdA20 := fun p hp => hs.rdA20 p (Table.extends_a20 xrd p hp)
    wrA20 := fun p hp => hs.wrA20 p (Table.extends_a20 xwr p hp)
    transfers := by rw [hport, hhist, hs.transfers, List.filterMap_append]
    reports := by rw [hout, hhist', List.filter_append, hs.reports, hreports, hen, stubRecords_append]
    stubReads := fun slot arg b hc => (hregular _ hc).1 slot arg b rfl
    slotRange := fun c hc => (hregular c hc).2 }

/-- The invariant says nothing of the commands presented and the refusals. -/
theorem Inv.take {s : State} (h : Inv s) (rest : List Command) : Inv { s with commands := rest } :=
  { h with }

theorem Inv.refuse {s : State} (h : Inv s) (r : RefuseReason) : Inv (s.refuse r) :=
  { h with }

/-- Settles O47: a step waits, refuses a command or performs one, and each keeps the invariant. -/
theorem stepKeepsTheInvariant : Obligations.StepKeepsTheInvariant := by
  intro s t hs h
  rcases step_inversion h with rfl | ⟨rest, r, rfl⟩ | ⟨rest, i, he⟩
  · exact hs
  · exact (hs.take rest).refuse r
  · exact did_inv (did_of_exec he) (hs.take rest)

theorem inv_construct (d : Bool) (a : Byte) : Inv (State.construct d a) where
  rdCanonical := by simp only [State.construct_rd]; decide
  wrCanonical := by simp only [State.construct_wr]; decide
  rdA20 := fun p => (Table.read_construct_eq_a20_iff p).1
  wrA20 := fun p => (Table.read_construct_eq_a20_iff p).1
  transfers := rfl
  reports := by simp
  stubReads := by simp
  slotRange := by simp

/-- Settles O48: reset is the construction with the open parameters. -/
theorem constructionEstablishesTheInvariant : Obligations.ConstructionEstablishesTheInvariant :=
  ⟨inv_construct, inv_construct _ _⟩

end Sys2Proof.Machine
end

section
/-! SUPPORT. Proofs that compare two runs. What follows a command in the command port, the diagnostic mode and what was reported
are set together (`withPorts`), and each operation is shown to do the same whatever they are. -/

namespace Sys2Proof.Machine

/-- The state with other commands presented, another diagnostic mode and another diagnostic output. -/
def State.withPorts (s : State) (cs : List Command) (en : Bool) (out : List DiagRec) : State :=
  { s with commands := cs, diagEn := en, diagOut := out }

/-! ### Cycles and accesses -/

section Ports
variable (cs : List Command) (en : Bool) (out : List DiagRec)

/-- A cycle that is not through the stub reports nothing (R112). -/
theorem append_stubRecords_of_none {c : Cycle} (hc : c.stubRecord = none) : out ++ stubRecords en [c] = out := by
  cases en <;> simp [stubRecords, hc]

/-- A read cycle does and answers the same, and reports itself. -/
theorem readCycle_withPorts (slot arg : Port) (s : State) : readCycle slot arg (s.withPorts cs en out) =
    ((readCycle slot arg s).1, (readCycle slot arg s).2.withPorts cs en
      (out ++ stubRecords en [.rd slot (Table.read s.rd slot) arg (readCycle slot arg s).1])) := by
  rcases hid_cases (Table.read s.rd slot) with h | h | h
  · rw [readCycle_of_stub arg h, readCycle_of_stub (s := s.withPorts cs en out) arg h, h]
    rfl
  · rw [readCycle_of_a20 arg h, readCycle_of_a20 (s := s.withPorts cs en out) arg h, h,
      append_stubRecords_of_none en out rfl]
    rfl
  · have hsilent := externalHid_ne_stub _ ((externalHid_iff _).2 h)
    rw [readCycle_of_external arg h, readCycle_of_external (s := s.withPorts cs en out) arg h,
      append_stubRecords_of_none en out (by simp [Cycle.stubRecord, hsilent])]
    rfl

/-- A write cycle does the same, and reports itself. -/
theorem writeCycle_withPorts (slot arg : Port) (b : Byte) (s : State) : writeCycle slot arg b (s.withPorts cs en out) =
    (writeCycle slot arg b s).withPorts cs en (out ++ stubRecords en [.wr slot (Table.read s.wr slot) arg b]) := by
  rcases hid_cases (Table.read s.wr slot) with h | h | h
  · rw [writeCycle_of_stub arg b h, writeCycle_of_stub (s := s.withPorts cs en out) arg b h, h]
    rfl
  · rw [writeCycle_of_a20 arg b h, writeCycle_of_a20 (s := s.withPorts cs en out) arg b h, h,
      append_stubRecords_of_none en out rfl]
    rfl
  · have hsilent := externalHid_ne_stub _ ((externalHid_iff _).2 h)
    rw [writeCycle_of_external arg b h, writeCycle_of_external (s := s.withPorts cs en out) arg b h,
      append_stubRecords_of_none en out (by simp [Cycle.stubRecord, hsilent])]
    rfl

theorem append_stubRecords_cons (c : Cycle) (ds : List Cycle) :
    (out ++ stubRecords en [c]) ++ stubRecords en ds = out ++ stubRecords en (c :: ds) := by
  rw [List.append_assoc, ← stubRecords_append, List.singleton_append]

theorem readCycles_withPorts (arg : Port) (ss : List Port) (s : State) : readCycles arg ss (s.withPorts cs en out) =
    ((readCycles arg ss s).1, (readCycles arg ss s).2.withPorts cs en
      (out ++ stubRecords en (readRecords s.rd arg ss (readCycles arg ss s).1))) := by
  induction ss generalizing s out with
  | nil => simp [readCycles, readRecords]
  | cons x ss ih =>
    simp only [readCycles, readCycle_withPorts, ih, append_stubRecords_cons, (readCycle_ran x arg s).rd]
    rfl

theorem writeCycles_withPorts (arg : Port) (ws : List (Port × Byte)) (s : State) :
    writeCycles arg ws (s.withPorts cs en out) =
      (writeCycles arg ws s).withPorts cs en (out ++ stubRecords en (writeRecords s.wr arg ws)) := by
  induction ws generalizing s out with
  | nil => simp [writeCycles, writeRecords]
  | cons w ws ih =>
    obtain ⟨x, b⟩ := w
    simp only [writeCycles, writeCycle_withPorts, ih, append_stubRecords_cons, (writeCycle_ran x arg b s).wr]
    rfl

end Ports

/-- An operation takes `s` to `t` whatever commands follow, whatever the mode and whatever was reported: these it leaves
alone, but for the records `rs` that it reports in each mode. -/
def SameInAllPorts (f : State → Result) (s t : State) (rs : Bool → List DiagRec) : Prop :=
  ∀ cs en out, f (s.withPorts cs en out) = .next (t.withPorts cs en (out ++ rs en))

theorem readAccess_sameInAllPorts (width : Width) (p : Port) (s : State) :
    ∃ t rs, SameInAllPorts (readAccess width p) s t rs := by
  by_cases hs : straddles p width.bytes = true
  · refine ⟨rejectRead width p s, fun _ => [.reject .read width p none], fun cs en out => ?_⟩
    rw [readAccess_of_straddles _ hs]
    rfl
  · refine ⟨serviceRead width p s, fun en => stubRecords en (readTrace width p s), fun cs en out => ?_⟩
    rw [readAccess_of_not_straddles _ hs]
    simp only [serviceRead, readCycles_withPorts]
    rfl

theorem writeAccess_sameInAllPorts (width : Width) (p : Port) (v : Data) (s : State) :
    ∃ t rs, SameInAllPorts (writeAccess width p v) s t rs := by
  by_cases hs : straddles p width.bytes = true
  · refine ⟨rejectWrite width p v s, fun _ => [.reject .write width p (some v)], fun cs en out => ?_⟩
    rw [writeAccess_of_straddles _ _ hs]
    rfl
  · refine ⟨serviceWrite width p v s, fun en => stubRecords en (writeTrace width p v s), fun cs en out => ?_⟩
    rw [writeAccess_of_not_straddles _ _ hs]
    simp only [serviceWrite, writeCycles_withPorts]
    rfl

/-- Every command does the same in all ports. -/
theorem exec_sameInAllPorts (i : Instr) (s : State) : ∃ t rs, SameInAllPorts (exec i) s t rs := by
  cases i with
  | read8 p => exact readAccess_sameInAllPorts .w8 p s
  | read16 p => exact readAccess_sameInAllPorts .w16 p s
  | read32 p => exact readAccess_sameInAllPorts .w32 p s
  | write8 p v => exact writeAccess_sameInAllPorts .w8 p _ s
  | write16 p v => exact writeAccess_sameInAllPorts .w16 p _ s
  | write32 p v => exact writeAccess_sameInAllPorts .w32 p v s
  | regRead p h =>
    refine ⟨if externalHid h then (s.bindRead p h).respond .ok 0#32 else s.refuse .builtinHandlerId, fun _ => [],
      fun cs en out => ?_⟩
    rw [exec_regRead_eq, List.append_nil]
    split_ifs <;> rfl
  | regWrite p h =>
    refine ⟨if externalHid h then (s.bindWrite p h).respond .ok 0#32 else s.refuse .builtinHandlerId, fun _ => [],
      fun cs en out => ?_⟩
    rw [exec_regWrite_eq, List.append_nil]
    split_ifs <;> rfl

/-! ### Steps and runs -/

/-- A step that takes the command `c` does the same whatever commands follow it, in either mode. -/
theorem step_withPorts (c : Command) (s : State) :
    ∃ (t : State) (rs : Bool → List DiagRec), ∀ rest en out,
      step (s.withPorts (c :: rest) en out) = .next (t.withPorts rest en (out ++ rs en)) := by
  cases ha : c.accept with
  | refused r =>
    refine ⟨s.refuse r, fun _ => [], fun rest en out => ?_⟩
    rw [step_refused rfl ha, List.append_nil]
    rfl
  | command i =>
    obtain ⟨t, rs, hsame⟩ := exec_sameInAllPorts i s
    exact ⟨t, rs, fun rest en out => (step_command rfl ha).trans (hsame rest en out)⟩

/-- Taking the commands `cs`, one a step, does the same whatever commands follow them, in either mode (R48). -/
theorem runSteps_withPorts (cs : List Command) (s : State) : ∃ (t : State) (rs : Bool → List DiagRec), ∀ rest en out,
    runSteps cs.length (s.withPorts (cs ++ rest) en out) = .next (t.withPorts rest en (out ++ rs en)) := by
  induction cs generalizing s with
  | nil => exact ⟨s, fun _ => [], fun rest en out => by rw [List.append_nil]; rfl⟩
  | cons c cs ih =>
    obtain ⟨t, rs, hstep⟩ := step_withPorts c s
    obtain ⟨u, qs, hrun⟩ := ih t
    refine ⟨u, fun en => rs en ++ qs en, fun rest en out => ?_⟩
    rw [List.cons_append, List.length_cons, runSteps_succ (hstep (cs ++ rest) en out), hrun, List.append_assoc]

/-- Settles O16: the same run, with nothing and with `rest` after the commands. -/
theorem commandsRunInOrderWithoutLookahead : Obligations.CommandsRunInOrderWithoutLookahead := by
  intro cs rest s
  obtain ⟨t, rs, hrun⟩ := runSteps_withPorts cs s
  refine ⟨t.withPorts [] s.diagEn (s.diagOut ++ rs s.diagEn), ?_, hrun rest s.diagEn s.diagOut⟩
  have hall := hrun [] s.diagEn s.diagOut
  rw [List.append_nil] at hall
  exact hall

/-- A step in another mode, after other reports, differs in the mode and the reports only. -/
theorem step_otherMode {s t : State} (h : step s = .next t) (en : Bool) (out : List DiagRec) :
    ∃ out', step { s with diagEn := en, diagOut := out } = .next { t with diagEn := en, diagOut := out' } := by
  by_cases hc : s.commands = []
  · rw [step_of_no_command hc] at h
    cases h
    exact ⟨out, step_of_no_command hc⟩
  · obtain ⟨c, rest, hc⟩ := List.exists_cons_of_ne_nil hc
    obtain ⟨u, rs, hsame⟩ := step_withPorts c s
    have hs := hsame rest s.diagEn s.diagOut
    have hother := hsame rest en out
    simp only [State.withPorts, ← hc] at hs hother
    rw [hs] at h
    cases h
    exact ⟨_, hother⟩

theorem runSteps_otherMode {k : Nat} {s t : State} (h : runSteps k s = .next t) (en : Bool) (out : List DiagRec) :
    ∃ out', runSteps k { s with diagEn := en, diagOut := out } = .next { t with diagEn := en, diagOut := out' } := by
  induction k generalizing s out with
  | zero =>
    cases h
    exact ⟨out, rfl⟩
  | succ k ih =>
    obtain ⟨u, hu⟩ := step_next s
    obtain ⟨out', hstep⟩ := step_otherMode hu en out
    rw [runSteps_succ hu] at h
    rw [runSteps_succ hstep]
    exact ih h out'

/-- Settles O46, from what every run reports and the comparison of a run in the two modes. -/
theorem diagnosticModeOnlyReports : Obligations.DiagnosticModeOnlyReports :=
  ⟨State.construct_diagEn, fun _ _ _ => runSteps_reports, fun _ _ _ en out h => runSteps_otherMode h en out⟩

end Sys2Proof.Machine
end
